-- ==== Sys2Proof/Word.lean ====
section
/-! DEFINITION. The word types of the chip8_emu CORE: bytes, 16-bit words, register names and row counts.
Every value is unsigned (00_scope.md R7). -/

namespace Sys2Proof

/-- A memory cell, a general register or a timer: 8 bits (00_scope.md R5, CELL_WIDTH, REG_WIDTH, TIMER_WIDTH). -/
abbrev Byte := BitVec 8

/-- I, pc, a stack entry or an opcode: 16 bits (00_scope.md R5). -/
abbrev Word := BitVec 16

/-- The 12-bit absolute address operand nnn (30_encoding.md R51). -/
abbrev Addr12 := BitVec 12

/-- The name of a general register, V0..VF, and of a key, 0x0..0xF (10_state.md R15, R23). -/
abbrev Reg := Fin 16

/-- The row count n of DRW, 0..15 (30_encoding.md R53). -/
abbrev RowCount := Fin 16

end Sys2Proof
end

