-- ==== Sys2Proof/Syntax.lean ====
section
/-! DEFINITION. The instruction set: one constructor per row of the opcode map (30_encoding.md R54), in its order.
Register and immediate operands are already the fields of 30_encoding.md R51, so no later file sees an encoding. -/

namespace Sys2Proof

/-- The 35 instructions of 30_encoding.md R54. -/
inductive Instr where
  /-- 00E0 CLS (44_display.md R102) -/
  | cls
  /-- 00EE RET (41_control.md R74) -/
  | ret
  /-- 0nnn SYS nnn (41_control.md R73) -/
  | sys (nnn : Addr12)
  /-- 1nnn JP nnn (41_control.md R75) -/
  | jp (nnn : Addr12)
  /-- 2nnn CALL nnn (41_control.md R76) -/
  | call (nnn : Addr12)
  /-- 3xkk SE Vx, kk (41_control.md R77) -/
  | seImm (x : Reg) (kk : Byte)
  /-- 4xkk SNE Vx, kk (41_control.md R78) -/
  | sneImm (x : Reg) (kk : Byte)
  /-- 5xy0 SE Vx, Vy (41_control.md R79) -/
  | seReg (x y : Reg)
  /-- 6xkk LD Vx, kk (42_alu.md R83) -/
  | ldImm (x : Reg) (kk : Byte)
  /-- 7xkk ADD Vx, kk (42_alu.md R84) -/
  | addImm (x : Reg) (kk : Byte)
  /-- 8xy0 LD Vx, Vy (42_alu.md R85) -/
  | ldReg (x y : Reg)
  /-- 8xy1 OR Vx, Vy (42_alu.md R86) -/
  | orReg (x y : Reg)
  /-- 8xy2 AND Vx, Vy (42_alu.md R87) -/
  | andReg (x y : Reg)
  /-- 8xy3 XOR Vx, Vy (42_alu.md R88) -/
  | xorReg (x y : Reg)
  /-- 8xy4 ADD Vx, Vy (42_alu.md R89) -/
  | addReg (x y : Reg)
  /-- 8xy5 SUB Vx, Vy (42_alu.md R90) -/
  | sub (x y : Reg)
  /-- 8xy6 SHR Vx, Vy (42_alu.md R91); y is encoded but not read -/
  | shr (x y : Reg)
  /-- 8xy7 SUBN Vx, Vy (42_alu.md R92) -/
  | subn (x y : Reg)
  /-- 8xyE SHL Vx, Vy (42_alu.md R93); y is encoded but not read -/
  | shl (x y : Reg)
  /-- 9xy0 SNE Vx, Vy (41_control.md R80) -/
  | sneReg (x y : Reg)
  /-- Annn LD I, nnn (43_index_memory.md R95) -/
  | ldI (nnn : Addr12)
  /-- Bnnn JP V0, nnn (41_control.md R81) -/
  | jpV0 (nnn : Addr12)
  /-- Cxkk RND Vx, kk (42_alu.md R94) -/
  | rnd (x : Reg) (kk : Byte)
  /-- Dxyn DRW Vx, Vy, n (44_display.md R103) -/
  | drw (x y : Reg) (n : RowCount)
  /-- Ex9E SKP Vx (45_input_timers.md R104) -/
  | skp (x : Reg)
  /-- ExA1 SKNP Vx (45_input_timers.md R105) -/
  | sknp (x : Reg)
  /-- Fx07 LD Vx, DT (45_input_timers.md R106) -/
  | ldVxDT (x : Reg)
  /-- Fx0A LD Vx, K (45_input_timers.md R107) -/
  | ldVxK (x : Reg)
  /-- Fx15 LD DT, Vx (45_input_timers.md R108) -/
  | ldDTVx (x : Reg)
  /-- Fx18 LD ST, Vx (45_input_timers.md R109) -/
  | ldSTVx (x : Reg)
  /-- Fx1E ADD I, Vx (43_index_memory.md R96) -/
  | addIVx (x : Reg)
  /-- Fx29 LD F, Vx (43_index_memory.md R97) -/
  | ldFVx (x : Reg)
  /-- Fx33 LD B, Vx (43_index_memory.md R98) -/
  | ldBVx (x : Reg)
  /-- Fx55 LD [I], Vx (43_index_memory.md R99) -/
  | ldMemVx (x : Reg)
  /-- Fx65 LD Vx, [I] (43_index_memory.md R100) -/
  | ldVxMem (x : Reg)
  deriving DecidableEq, Repr

end Sys2Proof
end

