-- ==== Sys2Proof/Decode.lean ====
section
/-! DEFINITION. The decoder, total on every word and every byte list (30_encoding.md R54 to R60), then the encoder,
written from the same formats (R52), then the opcode map as rows of mask and pattern (R54). -/

namespace Sys2Proof

/-- What a word decodes to: an instruction, or `Unknown(op)`, rejected by name with the word (30_encoding.md R54, R60). -/
inductive Decoded where
  | instr (i : Instr)
  | unknown (op : Word)
  deriving DecidableEq, Repr

/-- A register name or count as a nibble of the opcode. -/
def nibble (r : Fin 16) : BitVec 4 := BitVec.ofFin r

/-- Field g, op[15:12] (30_encoding.md R51). -/
def fieldG (op : Word) : Nat := (op.extractLsb' 12 4).toNat

/-- Field x, op[11:8] (30_encoding.md R51). -/
def fieldX (op : Word) : Reg := (op.extractLsb' 8 4).toFin

/-- Field y, op[7:4] (30_encoding.md R51). -/
def fieldY (op : Word) : Reg := (op.extractLsb' 4 4).toFin

/-- Field n, op[3:0] (30_encoding.md R51). -/
def fieldN (op : Word) : RowCount := (op.extractLsb' 0 4).toFin

/-- Field kk, op[7:0] (30_encoding.md R51). -/
def fieldKK (op : Word) : Byte := op.extractLsb' 0 8

/-- Field nnn, op[11:0] (30_encoding.md R51). -/
def fieldNNN (op : Word) : Addr12 := op.extractLsb' 0 12

/-- Group 0: only the two exact words are CLS and RET, every other one is SYS (30_encoding.md R55). -/
def decodeGroup0 (op : Word) : Decoded :=
  if op = 0x00E0#16 then .instr .cls
  else if op = 0x00EE#16 then .instr .ret
  else .instr (.sys (fieldNNN op))

/-- Group 8 dispatches on the low nibble (30_encoding.md R57). -/
def decodeGroup8 (op : Word) : Decoded :=
  match (fieldN op).val with
  | 0x0 => .instr (.ldReg (fieldX op) (fieldY op))
  | 0x1 => .instr (.orReg (fieldX op) (fieldY op))
  | 0x2 => .instr (.andReg (fieldX op) (fieldY op))
  | 0x3 => .instr (.xorReg (fieldX op) (fieldY op))
  | 0x4 => .instr (.addReg (fieldX op) (fieldY op))
  | 0x5 => .instr (.sub (fieldX op) (fieldY op))
  | 0x6 => .instr (.shr (fieldX op) (fieldY op))
  | 0x7 => .instr (.subn (fieldX op) (fieldY op))
  | 0xE => .instr (.shl (fieldX op) (fieldY op))
  | _ => .unknown op

/-- Group E dispatches on the low byte (30_encoding.md R58). -/
def decodeGroupE (op : Word) : Decoded :=
  match (fieldKK op).toNat with
  | 0x9E => .instr (.skp (fieldX op))
  | 0xA1 => .instr (.sknp (fieldX op))
  | _ => .unknown op

/-- Group F dispatches on the low byte (30_encoding.md R59). -/
def decodeGroupF (op : Word) : Decoded :=
  match (fieldKK op).toNat with
  | 0x07 => .instr (.ldVxDT (fieldX op))
  | 0x0A => .instr (.ldVxK (fieldX op))
  | 0x15 => .instr (.ldDTVx (fieldX op))
  | 0x18 => .instr (.ldSTVx (fieldX op))
  | 0x1E => .instr (.addIVx (fieldX op))
  | 0x29 => .instr (.ldFVx (fieldX op))
  | 0x33 => .instr (.ldBVx (fieldX op))
  | 0x55 => .instr (.ldMemVx (fieldX op))
  | 0x65 => .instr (.ldVxMem (fieldX op))
  | _ => .unknown op

/-- Decode, a total function from the 65536 words (30_encoding.md R54). Groups 5 and 9 check their low nibble (R56).
The last arm is never reached: a nibble is at most 15. -/
def decode (op : Word) : Decoded :=
  match fieldG op with
  | 0x0 => decodeGroup0 op
  | 0x1 => .instr (.jp (fieldNNN op))
  | 0x2 => .instr (.call (fieldNNN op))
  | 0x3 => .instr (.seImm (fieldX op) (fieldKK op))
  | 0x4 => .instr (.sneImm (fieldX op) (fieldKK op))
  | 0x5 => if (fieldN op).val = 0 then .instr (.seReg (fieldX op) (fieldY op)) else .unknown op
  | 0x6 => .instr (.ldImm (fieldX op) (fieldKK op))
  | 0x7 => .instr (.addImm (fieldX op) (fieldKK op))
  | 0x8 => decodeGroup8 op
  | 0x9 => if (fieldN op).val = 0 then .instr (.sneReg (fieldX op) (fieldY op)) else .unknown op
  | 0xA => .instr (.ldI (fieldNNN op))
  | 0xB => .instr (.jpV0 (fieldNNN op))
  | 0xC => .instr (.rnd (fieldX op) (fieldKK op))
  | 0xD => .instr (.drw (fieldX op) (fieldY op) (fieldN op))
  | 0xE => decodeGroupE op
  | 0xF => decodeGroupF op
  | _ => .unknown op

/-- The opcode of two bytes, the one at the lower address the high byte:
`(mem[pc] << 8) | mem[pc + 1]` (20_memory.md R39, R40). -/
def wordOfBytes (hi lo : Byte) : Word := hi.setWidth 16 <<< 8 ||| lo.setWidth 16

/-- The byte of a word stored at the lower address (20_memory.md R40). -/
def highByte (op : Word) : Byte := op.extractLsb' 8 8

/-- The byte of a word stored at the higher address (20_memory.md R40). -/
def lowByte (op : Word) : Byte := op.extractLsb' 0 8

/-- Decode the first instruction of a byte list, with the bytes left over. An instruction is always two bytes
(30_encoding.md R50), so fewer are none. -/
def decodeBytes : List Byte → Option (Decoded × List Byte)
  | hi :: lo :: rest => some (decode (wordOfBytes hi lo), rest)
  | _ => none

/-- Format NNN (30_encoding.md R52). -/
def packNNN (g : BitVec 4) (nnn : Addr12) : Word := g ++ nnn

/-- Format XKK, and format X with kk its fixed low byte (30_encoding.md R52). -/
def packXKK (g : BitVec 4) (x : Reg) (kk : Byte) : Word := g ++ nibble x ++ kk

/-- Format XYN, and format XY with n its fixed low nibble (30_encoding.md R52). -/
def packXYN (g : BitVec 4) (x y : Reg) (n : Fin 16) : Word := g ++ nibble x ++ nibble y ++ nibble n

/-- The word of an instruction (30_encoding.md R52, R54). -/
def encode : Instr → Word
  | .cls => 0x00E0#16
  | .ret => 0x00EE#16
  | .sys nnn => packNNN 0x0#4 nnn
  | .jp nnn => packNNN 0x1#4 nnn
  | .call nnn => packNNN 0x2#4 nnn
  | .seImm x kk => packXKK 0x3#4 x kk
  | .sneImm x kk => packXKK 0x4#4 x kk
  | .seReg x y => packXYN 0x5#4 x y 0x0
  | .ldImm x kk => packXKK 0x6#4 x kk
  | .addImm x kk => packXKK 0x7#4 x kk
  | .ldReg x y => packXYN 0x8#4 x y 0x0
  | .orReg x y => packXYN 0x8#4 x y 0x1
  | .andReg x y => packXYN 0x8#4 x y 0x2
  | .xorReg x y => packXYN 0x8#4 x y 0x3
  | .addReg x y => packXYN 0x8#4 x y 0x4
  | .sub x y => packXYN 0x8#4 x y 0x5
  | .shr x y => packXYN 0x8#4 x y 0x6
  | .subn x y => packXYN 0x8#4 x y 0x7
  | .shl x y => packXYN 0x8#4 x y 0xE
  | .sneReg x y => packXYN 0x9#4 x y 0x0
  | .ldI nnn => packNNN 0xA#4 nnn
  | .jpV0 nnn => packNNN 0xB#4 nnn
  | .rnd x kk => packXKK 0xC#4 x kk
  | .drw x y n => packXYN 0xD#4 x y n
  | .skp x => packXKK 0xE#4 x 0x9E#8
  | .sknp x => packXKK 0xE#4 x 0xA1#8
  | .ldVxDT x => packXKK 0xF#4 x 0x07#8
  | .ldVxK x => packXKK 0xF#4 x 0x0A#8
  | .ldDTVx x => packXKK 0xF#4 x 0x15#8
  | .ldSTVx x => packXKK 0xF#4 x 0x18#8
  | .addIVx x => packXKK 0xF#4 x 0x1E#8
  | .ldFVx x => packXKK 0xF#4 x 0x29#8
  | .ldBVx x => packXKK 0xF#4 x 0x33#8
  | .ldMemVx x => packXKK 0xF#4 x 0x55#8
  | .ldVxMem x => packXKK 0xF#4 x 0x65#8

/-- The two bytes of an instruction as memory holds them (20_memory.md R40). -/
def encodeBytes (i : Instr) : List Byte := [highByte (encode i), lowByte (encode i)]

/-- One row of the opcode map: the words w with `w &&& mask = pattern`, but for the exact words `excludes`
(30_encoding.md R54). -/
structure OpcodeRow where
  pattern : Word
  mask : Word
  excludes : List Word
  deriving DecidableEq, Repr

/-- A word falls under a row. -/
def rowAccepts (r : OpcodeRow) (op : Word) : Bool := op &&& r.mask == r.pattern && !r.excludes.contains op

/-- The row of the opcode map an instruction stands in (30_encoding.md R54, spec/opcode_table.json). -/
def rowOf : Instr → OpcodeRow
  | .cls => ⟨0x00E0#16, 0xFFFF#16, []⟩
  | .ret => ⟨0x00EE#16, 0xFFFF#16, []⟩
  | .sys _ => ⟨0x0000#16, 0xF000#16, [0x00E0#16, 0x00EE#16]⟩
  | .jp _ => ⟨0x1000#16, 0xF000#16, []⟩
  | .call _ => ⟨0x2000#16, 0xF000#16, []⟩
  | .seImm _ _ => ⟨0x3000#16, 0xF000#16, []⟩
  | .sneImm _ _ => ⟨0x4000#16, 0xF000#16, []⟩
  | .seReg _ _ => ⟨0x5000#16, 0xF00F#16, []⟩
  | .ldImm _ _ => ⟨0x6000#16, 0xF000#16, []⟩
  | .addImm _ _ => ⟨0x7000#16, 0xF000#16, []⟩
  | .ldReg _ _ => ⟨0x8000#16, 0xF00F#16, []⟩
  | .orReg _ _ => ⟨0x8001#16, 0xF00F#16, []⟩
  | .andReg _ _ => ⟨0x8002#16, 0xF00F#16, []⟩
  | .xorReg _ _ => ⟨0x8003#16, 0xF00F#16, []⟩
  | .addReg _ _ => ⟨0x8004#16, 0xF00F#16, []⟩
  | .sub _ _ => ⟨0x8005#16, 0xF00F#16, []⟩
  | .shr _ _ => ⟨0x8006#16, 0xF00F#16, []⟩
  | .subn _ _ => ⟨0x8007#16, 0xF00F#16, []⟩
  | .shl _ _ => ⟨0x800E#16, 0xF00F#16, []⟩
  | .sneReg _ _ => ⟨0x9000#16, 0xF00F#16, []⟩
  | .ldI _ => ⟨0xA000#16, 0xF000#16, []⟩
  | .jpV0 _ => ⟨0xB000#16, 0xF000#16, []⟩
  | .rnd _ _ => ⟨0xC000#16, 0xF000#16, []⟩
  | .drw _ _ _ => ⟨0xD000#16, 0xF000#16, []⟩
  | .skp _ => ⟨0xE09E#16, 0xF0FF#16, []⟩
  | .sknp _ => ⟨0xE0A1#16, 0xF0FF#16, []⟩
  | .ldVxDT _ => ⟨0xF007#16, 0xF0FF#16, []⟩
  | .ldVxK _ => ⟨0xF00A#16, 0xF0FF#16, []⟩
  | .ldDTVx _ => ⟨0xF015#16, 0xF0FF#16, []⟩
  | .ldSTVx _ => ⟨0xF018#16, 0xF0FF#16, []⟩
  | .addIVx _ => ⟨0xF01E#16, 0xF0FF#16, []⟩
  | .ldFVx _ => ⟨0xF029#16, 0xF0FF#16, []⟩
  | .ldBVx _ => ⟨0xF033#16, 0xF0FF#16, []⟩
  | .ldMemVx _ => ⟨0xF055#16, 0xF0FF#16, []⟩
  | .ldVxMem _ => ⟨0xF065#16, 0xF0FF#16, []⟩

/-- One instruction of each row, in the order of the opcode map. -/
def sampleOfEachRow : List Instr :=
  [.cls, .ret, .sys 0, .jp 0, .call 0, .seImm 0 0, .sneImm 0 0, .seReg 0 0, .ldImm 0 0, .addImm 0 0,
   .ldReg 0 0, .orReg 0 0, .andReg 0 0, .xorReg 0 0, .addReg 0 0, .sub 0 0, .shr 0 0, .subn 0 0, .shl 0 0,
   .sneReg 0 0, .ldI 0, .jpV0 0, .rnd 0 0, .drw 0 0 0, .skp 0, .sknp 0,
   .ldVxDT 0, .ldVxK 0, .ldDTVx 0, .ldSTVx 0, .addIVx 0, .ldFVx 0, .ldBVx 0, .ldMemVx 0, .ldVxMem 0]

/-- The opcode map: 35 rows (30_encoding.md R54). -/
def opcodeRows : List OpcodeRow := sampleOfEachRow.map rowOf

/-- The instruction the decoder reads from a word numbered as spec/opcode_table.json numbers it. Every row has 16 bits,
laid out high byte first (20_memory.md R40). For another `nbits` the bits above it are zero and the first word is
read (DESIGN CHOICE, log entry 18). -/
def decodeTableWord (nbits w : Nat) : Option Instr :=
  let op : Word := BitVec.ofNat 16 (w % 2 ^ nbits)
  match decodeBytes [highByte op, lowByte op] with
  | some (.instr i, _) => some i
  | _ => none

end Sys2Proof
end

