-- ==== Sys2Proof/Config.lean ====
section
/-! DEFINITION. What the spec fixes once for the block (00_scope.md R5), and the two parameters it leaves free
(00_scope.md R6): FONT and RND. The two free values are opaque: no proof can see what they are, so a theorem about
this model holds whatever they are. -/

namespace Sys2Proof.Config

/-- MEM_SIZE (00_scope.md R5). -/
abbrev memSize : Nat := 4096

/-- FONT_SIZE: the font is at addresses 0..79 (00_scope.md R5, 20_memory.md R33). -/
abbrev fontSize : Nat := 80

/-- PROG_BASE, and PC_RESET (00_scope.md R5). -/
abbrev progBase : Nat := 512

/-- MAX_LOAD: the longest program image (00_scope.md R5). -/
abbrev maxLoad : Nat := 3584

/-- STACK_DEPTH (00_scope.md R5). -/
abbrev stackDepth : Nat := 16

/-- FB_WIDTH (00_scope.md R5). -/
abbrev fbWidth : Nat := 64

/-- FB_HEIGHT (00_scope.md R5). -/
abbrev fbHeight : Nat := 32

/-- FB_WIDTH x FB_HEIGHT one-bit cells (00_scope.md R5). -/
abbrev fbSize : Nat := 2048

/-- FREE VALUE: FONT, the bytes of addresses 0..79 after reset; only the indices 0..79 are used
(00_scope.md R6, 92_eei_decisions.md D14). DESIGN CHOICE: an opaque constant, log entry 1; safe. -/
opaque font : Nat → Byte

/-- FREE VALUE: RND, the byte that draw number k of Cxkk reads (00_scope.md R6, 60_exceptions.md R135).
DESIGN CHOICE: an opaque constant indexed by the draw, log entry 2; safe. -/
opaque rnd : Nat → Byte

end Sys2Proof.Config
end

