-- ==== Sys2Proof/Machine/State.lean ====
section
/-! DEFINITION. The machine's state as plain data (10_state.md R13 to R26), the record of a fatal condition
(60_exceptions.md R111), the reasons a step could stop, and the state after reset (10_state.md R31). -/

namespace Sys2Proof.Machine

open Sys2Proof

/-- Memory: the cells that differ from the reset contents, as (address, byte) pairs, addresses strictly rising
(the form is `Memory.wf` in Machine/Ops.lean). -/
abbrev Memory := List Host.Cell

/-- A fatal condition with the info it records (60_exceptions.md R111). -/
inductive Fatal where
  /-- code 1: the word is no instruction (R113) -/
  | unknownOpcode (op : Word)
  /-- code 2: CALL with sp = 16 (R114) -/
  | stackOverflow (op : Word)
  /-- code 3: RET with sp = 0 (R115) -/
  | stackUnderflow (op : Word)
  /-- code 4: an access above 4095; `addr` is the lowest such address (R116) -/
  | memoryBounds (op : Word) (addr : Nat)
  /-- code 5: a fetch with pc >= 4095 (R117) -/
  | fetchBounds (pc : Word)
  /-- code 6: SKP or SKNP with Vx above 15 (R118) -/
  | keyIndex (op : Word) (v : Byte)
  deriving DecidableEq, Repr

/-- Why the machine would stop. NO constructor: the spec gives every fatal condition a next state ("an advisory signal,
not an enforced halt", 60_exceptions.md R112, R122), so no step ends in a fault. Safe and unsafe do not arise
(log entry 8). -/
inductive Fault : Type
  deriving DecidableEq, Repr

/-- Why an instruction would have no meaning. -/
inductive Refusal where
  /-- Raised by an arm of `exec` for an instruction not modelled yet. Safe. No arm raises it now. -/
  | notModelled (mnemonic : String)
  deriving DecidableEq, Repr

/-- The Machine State of 10_state.md R13, then the model's own three fields. -/
@[ext]
structure State where
  /-- memory (R14) -/
  mem : Memory
  /-- the general registers V0..VF; VF is also the flag (R15, R16) -/
  V : Vector Byte 16
  /-- the index register (R17) -/
  I : Word
  /-- the program counter (R18) -/
  pc : Word
  /-- the number of return addresses held, 0..16 (R19; log entry 12) -/
  sp : Fin 17
  /-- the return stack (R20) -/
  stack : Vector Word 16
  /-- the delay timer (R21) -/
  DT : Byte
  /-- the sound timer (R22) -/
  ST : Byte
  /-- the keypad latches, true for down (R23) -/
  key : Vector Bool 16
  /-- the framebuffer, index x + 64*y, true for set (R24) -/
  fb : Vector Bool 2048
  /-- the draw-pending flag (R25) -/
  drawPending : Bool
  /-- the terminate flag (R26) -/
  terminate : Bool
  /-- the model's own: the tone output of the last cycle (R30, R134; log entry 3) -/
  tone : Bool
  /-- the model's own: the diag output of the last cycle (R30, R134; log entry 3) -/
  diag : Option Fatal
  /-- the model's own: how many random bytes have been drawn (log entry 2) -/
  draws : Nat
  deriving DecidableEq, Repr

/-- What a step answers. -/
abbrev Res := Host.Outcome State Fault Refusal

/-- The state after `initialise` (10_state.md R31, 70_reset_and_hazards.md R136). Nothing is listed in memory: an
unlisted cell holds its reset contents, FONT at 0..79 and 0 elsewhere. `tone`, `diag` and `draws` are the model's own
(log entries 2, 3). -/
def State.reset : State where
  mem := []
  V := Vector.replicate 16 0
  I := 0
  pc := 512
  sp := 0
  stack := Vector.replicate 16 0
  DT := 0
  ST := 0
  key := Vector.replicate 16 false
  fb := Vector.replicate 2048 false
  drawPending := false
  terminate := false
  tone := false
  diag := none
  draws := 0

end Sys2Proof.Machine
end

