-- ==== Sys2Proof/Machine/Ops.lean ====
section
/-! DEFINITION. The named operations over memory, registers, pc, the stack, the timers and the framebuffer; raising a
fatal condition; the fetch and the Timer Tick. A fatal condition is this machine's only exception; there is no
return from one (60_exceptions.md R121, R122), so there is no return operation beside it. -/

namespace Sys2Proof.Machine

open Sys2Proof

/-! ### Memory (20_memory.md R32 to R38) -/

/-- The contents of a cell after `initialise`: FONT at 0..79, 0 elsewhere (10_state.md R31). Memory lists only the cells
that differ. -/
def resetByte (a : Nat) : Byte := if a < Config.fontSize then Config.font a else 0

/-- `mem[a]` for an address in range (20_memory.md R37). The bounds check of R37 is made before, by `withAddrs` and
`fetchWord`; above 4095 nothing is ever listed (log entry 7). -/
def Memory.read : Memory → Nat → Byte
  | [], a => resetByte a
  | (b, v) :: m, a => if a = b then v else Memory.read m a

/-- List a byte at an address, keeping the addresses rising. -/
def Memory.insert : Memory → Nat → Byte → Memory
  | [], a, v => [(a, v)]
  | (b, w) :: m, a, v =>
    if a < b then (a, v) :: (b, w) :: m
    else if a = b then (a, v) :: m
    else (b, w) :: Memory.insert m a v

/-- Take an address off the list: it reads as its reset contents again. -/
def Memory.erase : Memory → Nat → Memory
  | [], _ => []
  | (b, w) :: m, a => if a = b then Memory.erase m a else (b, w) :: Memory.erase m a

/-- `mem[a] <- v`: exactly one cell changes (20_memory.md R38). Above 4095 there is no cell (log entry 7). -/
def Memory.write (m : Memory) (a : Nat) (v : Byte) : Memory :=
  if a < Config.memSize then
    if v = resetByte a then m.erase a else m.insert a v
  else m

/-- Write the bytes of a list from an address upward, in ascending order (20_memory.md R40). -/
def Memory.writeList : Memory → Nat → List Byte → Memory
  | m, _, [] => m
  | m, a, v :: vs => Memory.writeList (m.write a v) (a + 1) vs

/-- The canonical form, for a list whose addresses are all above `lo` (`none`: no lower bound). -/
def Memory.wfAbove : Option Nat → Memory → Bool
  | _, [] => true
  | lo, (a, v) :: m =>
    (match lo with | none => true | some b => decide (b < a)) && decide (a < Config.memSize) &&
      decide (v ≠ resetByte a) && Memory.wfAbove (some a) m

/-- The canonical form of memory: addresses strictly rising and below 4096, and no entry equal to the cell's reset
contents. So equal memories are equal lists. -/
def Memory.wf (m : Memory) : Bool := Memory.wfAbove none m

/-! ### Registers -/

/-- VF, the general register that is also the flag (10_state.md R16). -/
def vf : Reg := 15

/-- Read `V[r]` (10_state.md R15). -/
def State.getV (s : State) (r : Reg) : Byte := s.V[r.val]

/-- `V[r] <- v` (10_state.md R15). -/
def State.setV (s : State) (r : Reg) (v : Byte) : State := { s with V := s.V.set r.val v }

/-- `I <- v` (10_state.md R17): all 16 bits, never masked. -/
def State.setI (s : State) (v : Word) : State := { s with I := v }

/-- `pc <- target` (00_scope.md R9). -/
def State.setPc (s : State) (target : Word) : State := { s with pc := target }

/-- `pc <- (pc + 2) mod 65536`: the advance before execution (40_cycle.md R66), and a skip's second advance. -/
def State.advancePc (s : State) : State := { s with pc := s.pc + 2 }

/-! ### Fatal conditions (60_exceptions.md R110 to R122) -/

/-- The code of a fatal condition (60_exceptions.md R111). -/
def fatalCode : Fatal → Nat
  | .unknownOpcode _ => 1
  | .stackOverflow _ => 2
  | .stackUnderflow _ => 3
  | .memoryBounds _ _ => 4
  | .fetchBounds _ => 5
  | .keyIndex _ _ => 6

/-- `raise Fatal(kind, info)`: `terminate <- 1`, `diag <- (code, info)`, and nothing else (60_exceptions.md R112). pc is
not redirected, nothing is saved and no mode changes (R121). -/
def raiseFatal (f : Fatal) (s : State) : State := { s with terminate := true, diag := some f }

/-! ### The return stack (10_state.md R19, R20) -/

/-- `stack[sp] <- pc ; sp <- sp + 1`, or none when sp = 16 (41_control.md R76). -/
def pushPc (s : State) : Option State :=
  if h : s.sp.val < 16 then
    some { s with stack := s.stack.set s.sp.val s.pc, sp := ⟨s.sp.val + 1, by omega⟩ }
  else none

/-- `sp <- sp - 1 ; pc <- stack[sp]`, or none when sp = 0 (41_control.md R74). The entry keeps its value. -/
def popPc (s : State) : Option State :=
  if h : 0 < s.sp.val then
    some { s with sp := ⟨s.sp.val - 1, by omega⟩, pc := s.stack[s.sp.val - 1]'(by omega) }
  else none

/-! ### The framebuffer (44_display.md R101) -/

/-- The flat index of a pixel, x + y*64. -/
def fbIndex (px py : Nat) : Nat := px + Config.fbWidth * py

/-- `fb(px, py)`, for px in 0..63 and py in 0..31. -/
def pixelAt (fb : Vector Bool 2048) (px py : Nat) : Bool := fb[fbIndex px py]?.getD false

/-- `fb(px, py) <- fb(px, py) ^ 1`. -/
def togglePixel (fb : Vector Bool 2048) (px py : Nat) : Vector Bool 2048 :=
  fb.setIfInBounds (fbIndex px py) (!pixelAt fb px py)

/-! ### The keypad (10_state.md R23) -/

/-- The latch of key k. -/
def State.keyDown (s : State) (k : Reg) : Bool := s.key[k.val]

/-- The lowest key that is down, if any (45_input_timers.md R107). -/
def State.lowestKey (s : State) : Option Reg := (List.finRange 16).find? fun k => s.keyDown k

/-! ### The random byte (00_scope.md R6, 60_exceptions.md R135) -/

/-- The byte this draw reads: a free value, one for each draw (log entry 2). -/
def State.randomByte (s : State) : Byte := Config.rnd s.draws

/-- The draw is used up: the next one is another free value. -/
def State.consumeDraw (s : State) : State := { s with draws := s.draws + 1 }

/-! ### The parts of a cycle (40_cycle.md) -/

/-- `tone <- false ; diag <- none`, the first statement of a cycle (40_cycle.md R64; log entry 3). -/
def clearOutputs (s : State) : State := { s with tone := false, diag := none }

/-- `Fetch(pc)`: none when pc + 1 > 4095, else the big-endian opcode at pc (20_memory.md R39, 40_cycle.md R65). -/
def fetchWord (s : State) : Option Word :=
  if s.pc.toNat + 1 > 4095 then none
  else some (wordOfBytes (s.mem.read s.pc.toNat) (s.mem.read (s.pc.toNat + 1)))

/-- One timer's decrement: `if t > 0 then t <- t - 1` (40_cycle.md R70, R71). -/
def tickDown (t : Byte) : Byte := if 0 < t.toNat then t - 1 else t

/-- The Timer Tick: DT and ST count down, and the tone sounds when the tick finds ST nonzero (40_cycle.md R69 to R71). -/
def timerTick (s : State) : State :=
  { s with
    DT := tickDown s.DT
    ST := tickDown s.ST
    tone := s.ST != 0 || s.tone }

end Sys2Proof.Machine
end

