-- ==== Sys2Proof/Machine/Cycle.lean ====
section
/-! DEFINITION. One Instruction Cycle over a given execute function (40_cycle.md R64), and the place `withFetchWord`
stores an instruction at. Machine/Step.lean gives it the dispatch. -/

namespace Sys2Proof.Machine

open Sys2Proof

/-- The Timer Tick runs after the execute step (40_cycle.md R69). A fault or a refusal would end the cycle before it;
no meaning answers one. -/
def thenTick : Res → Res
  | .next s => .next (timerTick s)
  | .fault r => .fault r
  | .refused r => .refused r

/-- `cycle()` as 40_cycle.md R64 writes it: clear the outputs; a failed fetch raises FetchBounds and executes nothing
(R65); else advance pc by 2 (R66) and execute the decoded word (R67), an unknown one raising UnknownOpcode
(60_exceptions.md R113); then the Timer Tick. It runs whether or not terminate is raised (60_exceptions.md R122). -/
def cycleWith (execute : Instr → State → Res) (s : State) : Res :=
  let s0 := clearOutputs s
  match fetchWord s0 with
  | none => thenTick (.next (raiseFatal (.fetchBounds s0.pc) s0))
  | some op =>
    let s1 := s0.advancePc
    match decode op with
    | .instr i => thenTick (execute i s1)
    | .unknown w => thenTick (.next (raiseFatal (.unknownOpcode w) s1))

/-- Where the next fetch reads, moved to the entry point 512 when pc is outside memory and no instruction can be stored
there (DESIGN CHOICE, log entry 6). -/
def placeAtFetch (s : State) : State := if s.pc.toNat + 1 > 4095 then s.setPc 512 else s

/-- Store a word where the next fetch reads it, high byte first (20_memory.md R39). -/
def storeFetchWord (s : State) (op : Word) : State :=
  let p := placeAtFetch s
  { p with mem := p.mem.writeList p.pc.toNat [highByte op, lowByte op] }

end Sys2Proof.Machine
end

