-- ==== Sys2Proof/Machine/Flags.lean ====
section
/-! DEFINITION. Every flag computation: the value VF receives (10_state.md R16, 42_alu.md R82). -/

namespace Sys2Proof.Machine

open Sys2Proof

/-- A flag as a byte: 1 or 0. -/
def flagByte (b : Bool) : Byte := if b then 1 else 0

/-- Carry: the integer sum exceeds 255 (42_alu.md R89). -/
def carry (a b : Byte) : Bool := decide (a.toNat + b.toNat > 255)

/-- No-borrow: the minuend is at least the subtrahend (42_alu.md R90, R92). -/
def noBorrow (minuend subtrahend : Byte) : Bool := decide (minuend.toNat ≥ subtrahend.toNat)

/-- The bit a right shift drops: bit 0 (42_alu.md R91). -/
def shiftedOutRight (v : Byte) : Bool := v.getLsbD 0

/-- The bit a left shift drops: bit 7 (42_alu.md R93). -/
def shiftedOutLeft (v : Byte) : Bool := v.getLsbD 7

end Sys2Proof.Machine
end

