-- ==== Sys2Proof/Machine/Operands.lean ====
section
/-! DEFINITION. The operand forms (30_encoding.md R53) and the effective addresses with their bounds check
(20_memory.md R36, R42). -/

namespace Sys2Proof.Machine

open Sys2Proof

/-- `zext_16(nnn)` (30_encoding.md R53). -/
def zextAddr (nnn : Addr12) : Word := nnn.setWidth 16

/-- A byte zero-extended to 16 bits, for sums with pc or I (00_scope.md R8). -/
def zextByte (b : Byte) : Word := b.setWidth 16

/-- The effective address of an instruction that accesses memory through I: an integer, never wrapped
(20_memory.md R36). -/
def State.base (s : State) : Nat := s.I.toNat

/-- `bad(a0, a1)`: the lowest address of a0..a1 that is above 4095, for an a1 above 4095 (43_index_memory.md). -/
def badAddr (a0 : Nat) : Nat := max a0 Config.memSize

/-- The bounds check of an instruction that accesses `count` cells from `base` upward, made before any effect
(20_memory.md R36, R42): if the last address is above 4095 the fatal condition MemoryBounds is raised and nothing else
happens, else the body runs. No cell, no check (44_display.md R103). `op` is the instruction's word (log entry 9). -/
def withAddrs (op : Word) (base count : Nat) (body : State → State) (s : State) : Res :=
  if 0 < count ∧ base + count - 1 > 4095 then .next (raiseFatal (.memoryBounds op (badAddr base)) s)
  else .next (body s)

/-- The block V0..Vx, in ascending order (30_encoding.md R53). -/
def regBlock (s : State) (x : Reg) : List Byte := s.V.toList.take (x.val + 1)

/-- The register file after `V[i] <- mem[base + i]` for i in 0..x; the registers above x stay
(43_index_memory.md R100). -/
def loadedRegs (s : State) (x : Reg) (base : Nat) : Vector Byte 16 :=
  Vector.ofFn fun r => if r ≤ x then s.mem.read (base + r.val) else s.getV r

/-- Load V0..Vx from `base` upward (43_index_memory.md R100). -/
def loadBlock (s : State) (x : Reg) (base : Nat) : State := { s with V := loadedRegs s x base }

/-- The three decimal digits of a byte: hundreds, tens, units (43_index_memory.md R98). -/
def bcdDigits (v : Byte) : List Byte := [v / 100, (v / 10) % 10, v % 10]

/-- The address of the glyph of a byte, `V[x] * 5`: the whole byte is used (43_index_memory.md R97). -/
def glyphAddr (v : Byte) : Word := zextByte v * 5

/-- The sprite's start column, `V[x] mod 64` (44_display.md R103, step 1). -/
def startColumn (v : Byte) : Nat := v.toNat % Config.fbWidth

/-- The sprite's start row, `V[y] mod 32` (44_display.md R103, step 1). -/
def startRow (v : Byte) : Nat := v.toNat % Config.fbHeight

/-- `rows`, the sprite rows that are not clipped: `min(n, 32 - yc)` (44_display.md R103). -/
def visibleRows (n : RowCount) (yc : Nat) : Nat := min n.val (Config.fbHeight - yc)

end Sys2Proof.Machine
end

