-- ==== Sys2Proof/Machine/Alu.lean ====
section
/-! DEFINITION. Register loads, arithmetic, logic and random (42_alu.md). Sums, differences and shifts are of unsigned
8-bit values, modulo 256 (R82). -/

namespace Sys2Proof.Machine

open Sys2Proof

/-- A flag-producing form: VF receives the flag of the two operands first; then V[x] receives the result of the two
operands read AGAIN, after the VF write (00_scope.md R10, 92_eei_decisions.md D2). So an operand that is VF is
read as the flag. -/
def flagThenResult (flag : Byte → Byte → Bool) (result : Byte → Byte → Byte) (x y : Reg) (s : State) : State :=
  let s1 := s.setV vf (flagByte (flag (s.getV x) (s.getV y)))
  s1.setV x (result (s1.getV x) (s1.getV y))

/-- LD Vx, kk (42_alu.md R83). -/
def execLdImm (x : Reg) (kk : Byte) (s : State) : Res := .next (s.setV x kk)

/-- ADD Vx, kk: no flag (42_alu.md R84). -/
def execAddImm (x : Reg) (kk : Byte) (s : State) : Res := .next (s.setV x (s.getV x + kk))

/-- LD Vx, Vy (42_alu.md R85). -/
def execLdReg (x y : Reg) (s : State) : Res := .next (s.setV x (s.getV y))

/-- OR Vx, Vy: VF is not written (42_alu.md R86). -/
def execOrReg (x y : Reg) (s : State) : Res := .next (s.setV x (s.getV x ||| s.getV y))

/-- AND Vx, Vy: VF is not written (42_alu.md R87). -/
def execAndReg (x y : Reg) (s : State) : Res := .next (s.setV x (s.getV x &&& s.getV y))

/-- XOR Vx, Vy: VF is not written (42_alu.md R88). -/
def execXorReg (x y : Reg) (s : State) : Res := .next (s.setV x (s.getV x ^^^ s.getV y))

/-- ADD Vx, Vy: carry, then sum (42_alu.md R89). -/
def execAddReg (x y : Reg) (s : State) : Res := .next (flagThenResult carry (· + ·) x y s)

/-- SUB Vx, Vy: no-borrow of Vx - Vy, then the difference (42_alu.md R90). -/
def execSub (x y : Reg) (s : State) : Res := .next (flagThenResult noBorrow (· - ·) x y s)

/-- SHR Vx: the shifted value is V[x]; y is not read (42_alu.md R91). -/
def execShr (x _y : Reg) (s : State) : Res :=
  .next (flagThenResult (fun a _ => shiftedOutRight a) (fun a _ => a >>> 1) x x s)

/-- SUBN Vx, Vy: no-borrow of Vy - Vx, then the difference (42_alu.md R92). -/
def execSubn (x y : Reg) (s : State) : Res :=
  .next (flagThenResult (fun a b => noBorrow b a) (fun a b => b - a) x y s)

/-- SHL Vx: the shifted value is V[x]; y is not read (42_alu.md R93). -/
def execShl (x _y : Reg) (s : State) : Res :=
  .next (flagThenResult (fun a _ => shiftedOutLeft a) (fun a _ => a <<< 1) x x s)

/-- RND Vx, kk: a fresh free byte, masked by kk (42_alu.md R94). -/
def execRnd (x : Reg) (kk : Byte) (s : State) : Res := .next (s.consumeDraw.setV x (s.randomByte &&& kk))

end Sys2Proof.Machine
end

