-- ==== Sys2Proof/Machine/Control.lean ====
section
/-! DEFINITION. Control transfer and skips (41_control.md). pc holds A + 2 when a meaning starts (40_cycle.md R66). -/

namespace Sys2Proof.Machine

open Sys2Proof

/-- `pc <- pc + 2` if the condition holds: the next instruction is passed over (41_control.md R77). -/
def skipIf (c : Bool) (s : State) : Res := .next (if c then s.advancePc else s)

/-- SYS nnn: no operation (41_control.md R73). -/
def execSys (_nnn : Addr12) (s : State) : Res := .next s

/-- RET (41_control.md R74). With sp = 0 it raises StackUnderflow and pops nothing. -/
def execRet (s : State) : Res :=
  match popPc s with
  | some t => .next t
  | none => .next (raiseFatal (.stackUnderflow (encode .ret)) s)

/-- JP nnn (41_control.md R75). -/
def execJp (nnn : Addr12) (s : State) : Res := .next (s.setPc (zextAddr nnn))

/-- CALL nnn (41_control.md R76). With sp = 16 it raises StackOverflow and pushes nothing. -/
def execCall (nnn : Addr12) (s : State) : Res :=
  match pushPc s with
  | some t => .next (t.setPc (zextAddr nnn))
  | none => .next (raiseFatal (.stackOverflow (encode (.call nnn))) s)

/-- SE Vx, kk (41_control.md R77). -/
def execSeImm (x : Reg) (kk : Byte) (s : State) : Res := skipIf (s.getV x == kk) s

/-- SNE Vx, kk (41_control.md R78). -/
def execSneImm (x : Reg) (kk : Byte) (s : State) : Res := skipIf (s.getV x != kk) s

/-- SE Vx, Vy (41_control.md R79). -/
def execSeReg (x y : Reg) (s : State) : Res := skipIf (s.getV x == s.getV y) s

/-- SNE Vx, Vy (41_control.md R80). -/
def execSneReg (x y : Reg) (s : State) : Res := skipIf (s.getV x != s.getV y) s

/-- JP V0, nnn: the sum is not masked to 12 bits (41_control.md R81). -/
def execJpV0 (nnn : Addr12) (s : State) : Res := .next (s.setPc (zextAddr nnn + zextByte (s.getV 0)))

end Sys2Proof.Machine
end

