-- ==== Sys2Proof/Machine/Display.lean ====
section
/-! DEFINITION. The framebuffer controller and the sprite blitter (44_display.md). -/

namespace Sys2Proof.Machine

open Sys2Proof

/-- CLS: every pixel 0, draw_pending raised (44_display.md R102). -/
def execCls (s : State) : Res := .next { s with fb := Vector.replicate 2048 false, drawPending := true }

/-- The column loop of one sprite row, over the list of columns still to do (44_display.md R103, steps 5 and 6): column j
is bit 7 - j of the row byte; a 0 bit changes nothing; a 1 bit beyond the right edge stops the row; else the pixel is
tested for collision and toggled. The pair is the framebuffer and whether a pixel collided. -/
def drawColumns (xc py : Nat) (row : Byte) : List Nat → Vector Bool 2048 × Bool → Vector Bool 2048 × Bool
  | [], acc => acc
  | j :: js, acc =>
    if row.getLsbD (7 - j) = false then drawColumns xc py row js acc
    else if xc + j ≥ Config.fbWidth then acc
    else drawColumns xc py row js (togglePixel acc.1 (xc + j) py, acc.2 || pixelAt acc.1 (xc + j) py)

/-- The row loop, over the list of rows still to do (44_display.md R103, steps 3 and 4): a row beyond the bottom edge
stops the loop; else its byte is read and drawn. -/
def drawRows (m : Memory) (base xc yc : Nat) : List Nat → Vector Bool 2048 × Bool → Vector Bool 2048 × Bool
  | [], acc => acc
  | i :: is, acc =>
    if yc + i ≥ Config.fbHeight then acc
    else drawRows m base xc yc is (drawColumns xc (yc + i) (m.read (base + i)) (List.range 8) acc)

/-- Steps 2 to 7 of DRW, with the start position and the row count already read (44_display.md R103; log entry 15). -/
def drawSprite (xc yc : Nat) (n : RowCount) (s : State) : State :=
  let drawn := drawRows s.mem s.base xc yc (List.range n.val) (s.fb, false)
  { s.setV vf (flagByte drawn.2) with fb := drawn.1, drawPending := true }

/-- DRW Vx, Vy, n: the start position is read before VF is written; only the rows that are not clipped are checked
(44_display.md R103). -/
def execDrw (x y : Reg) (n : RowCount) (s : State) : Res :=
  let xc := startColumn (s.getV x)
  let yc := startRow (s.getV y)
  withAddrs (encode (.drw x y n)) s.base (visibleRows n yc) (drawSprite xc yc n) s

end Sys2Proof.Machine
end

