-- ==== Sys2Proof/Machine/IndexMemory.lean ====
section
/-! DEFINITION. The index register and the memory transfers (43_index_memory.md). -/

namespace Sys2Proof.Machine

open Sys2Proof

/-- Store a list of bytes from `base` upward. -/
def storeBytes (base : Nat) (bytes : List Byte) (s : State) : State := { s with mem := s.mem.writeList base bytes }

/-- LD I, nnn (43_index_memory.md R95). -/
def execLdI (nnn : Addr12) (s : State) : Res := .next (s.setI (zextAddr nnn))

/-- ADD I, Vx: modulo 65536, no flag (43_index_memory.md R96). -/
def execAddIVx (x : Reg) (s : State) : Res := .next (s.setI (s.I + zextByte (s.getV x)))

/-- LD F, Vx (43_index_memory.md R97). -/
def execLdFVx (x : Reg) (s : State) : Res := .next (s.setI (glyphAddr (s.getV x)))

/-- LD B, Vx: hundreds, tens and units at I, I+1, I+2 (43_index_memory.md R98). -/
def execLdBVx (x : Reg) (s : State) : Res :=
  withAddrs (encode (.ldBVx x)) s.base 3 (fun s => storeBytes s.base (bcdDigits (s.getV x)) s) s

/-- LD [I], Vx: V0..Vx at I..I+x; I is not changed (43_index_memory.md R99). -/
def execLdMemVx (x : Reg) (s : State) : Res :=
  withAddrs (encode (.ldMemVx x)) s.base (x.val + 1) (fun s => storeBytes s.base (regBlock s x) s) s

/-- LD Vx, [I]: V0..Vx from I..I+x; I is not changed (43_index_memory.md R100). -/
def execLdVxMem (x : Reg) (s : State) : Res :=
  withAddrs (encode (.ldVxMem x)) s.base (x.val + 1) (fun s => loadBlock s x s.base) s

end Sys2Proof.Machine
end

