-- ==== Sys2Proof/Machine/InputTimers.lean ====
section
/-! DEFINITION. Keypad skips, the key wait and the timer registers (45_input_timers.md). -/

namespace Sys2Proof.Machine

open Sys2Proof

/-- The latch that V[x] numbers, handed to the continuation; an index above 15 raises KeyIndex
(45_input_timers.md R104, R105). -/
def withKey (op : Word) (x : Reg) (s : State) (k : Bool → Res) : Res :=
  if h : (s.getV x).toNat < 16 then k (s.keyDown ⟨(s.getV x).toNat, h⟩)
  else .next (raiseFatal (.keyIndex op (s.getV x)) s)

/-- SKP Vx: skip if the key is down (45_input_timers.md R104). -/
def execSkp (x : Reg) (s : State) : Res := withKey (encode (.skp x)) x s fun down => skipIf down s

/-- SKNP Vx: skip if the key is up (45_input_timers.md R105). -/
def execSknp (x : Reg) (s : State) : Res := withKey (encode (.sknp x)) x s fun down => skipIf (!down) s

/-- LD Vx, DT (45_input_timers.md R106). -/
def execLdVxDT (x : Reg) (s : State) : Res := .next (s.setV x s.DT)

/-- LD Vx, K: the lowest key down, or pc back to this instruction when none is (45_input_timers.md R107). -/
def execLdVxK (x : Reg) (s : State) : Res :=
  match s.lowestKey with
  | some k => .next (s.setV x (BitVec.ofNat 8 k.val))
  | none => .next (s.setPc (s.pc - 2))

/-- LD DT, Vx (45_input_timers.md R108). -/
def execLdDTVx (x : Reg) (s : State) : Res := .next { s with DT := s.getV x }

/-- LD ST, Vx (45_input_timers.md R109). -/
def execLdSTVx (x : Reg) (s : State) : Res := .next { s with ST := s.getV x }

end Sys2Proof.Machine
end

