-- ==== Sys2Proof/Machine/Step.lean ====
section
/-! DEFINITION. The step of the machine: one Instruction Cycle (40_cycle.md R64; log entry 4). -/

namespace Sys2Proof.Machine

open Sys2Proof

/-- One `cycle()`: fetch, advance, execute, tick. -/
def step (s : State) : Host.Outcome State Fault Refusal := cycleWith exec s

/-- The state with an instruction, numbered as spec/opcode_table.json numbers it, stored where step fetches next
(log entries 5, 6). -/
def State.withFetchWord (s : State) (nbits w : Nat) : State := storeFetchWord s (BitVec.ofNat 16 (w % 2 ^ nbits))

end Sys2Proof.Machine
end

