-- ==== Sys2Proof/Machine/HostOps.lean ====
section
/-! DEFINITION. The host interface: seven atomic operations over the same state (60_exceptions.md R129). `cycle` is the
model's step; the other six are here, and `hostStep` performs any of the seven (log entry 4). -/

namespace Sys2Proof.Machine

open Sys2Proof

/-- `initialise()`: every element of the state takes its reset value, and the outputs are cleared
(70_reset_and_hazards.md R136). It may be called at any time (92_eei_decisions.md D30). The draw counter is not reset:
no draw is related to an earlier one (60_exceptions.md R135; log entry 2). -/
def initialise (s : State) : State := { State.reset with draws := s.draws }

/-- What `load` answers (70_reset_and_hazards.md R137). -/
inductive LoadResult where
  | success
  | failure
  deriving DecidableEq, Repr

/-- `load(b)`: none is a byte source that could not be opened or read; that, and an image over 3584 bytes, is a Failure
that changes nothing; else the bytes go to 512 upward and nothing else changes (70_reset_and_hazards.md R137,
60_exceptions.md R119; log entry 11). -/
def load (b : Option (List Byte)) (s : State) : State × LoadResult :=
  match b with
  | none => (s, .failure)
  | some bytes =>
    if bytes.length > Config.maxLoad then (s, .failure)
    else ({ s with mem := s.mem.writeList Config.progBase bytes }, .success)

/-- `set_key(k)`: clear all 16 latches, then set latch k (60_exceptions.md R130). -/
def setKey (k : Reg) (s : State) : State := { s with key := (Vector.replicate 16 false).set k.val true }

/-- `read_pixel(i)`: the pixel of a flat index in 0..2047, else no value (60_exceptions.md R131; log entry 11). -/
def readPixel (i : Int) (s : State) : Option Bool := if 0 ≤ i then s.fb[i.toNat]? else none

/-- `read_draw()`: return draw_pending and lower it (60_exceptions.md R132). -/
def readDraw (s : State) : State × Bool := ({ s with drawPending := false }, s.drawPending)

/-- `read_terminate()`: return terminate, with no change (60_exceptions.md R133). -/
def readTerminate (s : State) : Bool := s.terminate

/-- A host operation with its argument (60_exceptions.md R129). -/
inductive HostOp where
  | initialise
  | load (b : Option (List Byte))
  | setKey (k : Reg)
  | cycle
  | readPixel (i : Int)
  | readDraw
  | readTerminate
  deriving DecidableEq, Repr

/-- What a host operation returns (60_exceptions.md R129, R134). -/
inductive HostResult where
  | none
  | load (r : LoadResult)
  | outputs (tone : Bool) (diag : Option Fatal)
  | pixel (p : Option Bool)
  | flag (b : Bool)
  deriving DecidableEq, Repr

/-- The state and the outputs after one cycle. A cycle that stopped would leave the state as it was and answer nothing;
no cycle stops (log entry 8). -/
def cycleOp (s : State) : State × HostResult :=
  match step s with
  | .next t => (t, .outputs t.tone t.diag)
  | .fault _ => (s, .none)
  | .refused _ => (s, .none)

/-- Perform one host operation: each is atomic and ends before the next begins (60_exceptions.md R129, 00_scope.md R12). -/
def hostStep (o : HostOp) (s : State) : State × HostResult :=
  match o with
  | .initialise => (Sys2Proof.Machine.initialise s, .none)
  | .load b => ((Sys2Proof.Machine.load b s).1, .load (Sys2Proof.Machine.load b s).2)
  | .setKey k => (Sys2Proof.Machine.setKey k s, .none)
  | .cycle => cycleOp s
  | .readPixel i => (s, .pixel (Sys2Proof.Machine.readPixel i s))
  | .readDraw => ((Sys2Proof.Machine.readDraw s).1, .flag (Sys2Proof.Machine.readDraw s).2)
  | .readTerminate => (s, .flag (Sys2Proof.Machine.readTerminate s))

/-- Perform a list of host operations in order, with what each returned. -/
def hostRun : List HostOp → State → State × List HostResult
  | [], s => (s, [])
  | o :: os, s =>
    let (t, r) := hostStep o s
    let (u, rs) := hostRun os t
    (u, r :: rs)

end Sys2Proof.Machine
end

