-- ==== Sys2Proof/Safety.lean ====
section
/-! DEFINITION. The terms claims are stated in: the invariant, what a run's end looks like, which fatal condition a cycle
raises (60_exceptions.md R111, written from the table and not from the meanings), and what an instruction may change. -/

namespace Sys2Proof.Machine

open Sys2Proof

/-! ### The invariant -/

/-- At most one key is down (10_state.md R23). -/
def atMostOneKey (s : State) : Prop := ∀ j k : Reg, s.keyDown j = true → s.keyDown k = true → j = k

/-- Memory is in canonical form and at most one key is down. sp in 0..16 is a fact of its type (10_state.md R19). -/
def State.Inv (s : State) : Prop := s.mem.wf = true ∧ atMostOneKey s

/-! ### Runs -/

/-- The instruction the next cycle executes, if it fetches one. -/
def nextInstr (s : State) : Option Instr :=
  match fetchWord s with
  | none => none
  | some op =>
    match decode op with
    | .instr i => some i
    | .unknown _ => none

/-- A faulted state, never a successful end of a run (70_reset_and_hazards.md R144). -/
def Faulted (s : State) : Prop := s.terminate = true

/-- An idle state: the next instruction jumps to itself (70_reset_and_hazards.md R144). -/
def Idle (s : State) : Prop := ∃ nnn : Addr12, nextInstr s = some (.jp nnn) ∧ zextAddr nnn = s.pc

/-- A waiting state: the next instruction is Fx0A and no key is down (70_reset_and_hazards.md R144). -/
def Waiting (s : State) : Prop := ∃ x : Reg, nextInstr s = some (.ldVxK x) ∧ ∀ k : Reg, s.keyDown k = false

/-- A run is a state reached from reset by host operations (10_state.md R13, 70_reset_and_hazards.md R138). -/
inductive Reachable : State → Prop where
  | reset : Reachable State.reset
  | op (o : HostOp) (s : State) : Reachable s → Reachable (hostStep o s).1

/-- A safe run has raised no fatal condition since its last `initialise` (60_exceptions.md R122). -/
def SafeRun (s : State) : Prop := Reachable s ∧ ¬ Faulted s

/-! ### Which fatal condition a cycle raises (60_exceptions.md R111) -/

/-- MemoryBounds for an instruction that accesses `count` cells from I upward, when the last is above 4095. -/
def boundsFatal (op : Word) (s : State) (count : Nat) : Option Fatal :=
  if 0 < count ∧ s.I.toNat + count > 4096 then some (.memoryBounds op (max s.I.toNat 4096)) else none

/-- The row of 60_exceptions.md R111 that an instruction with word `op` meets in a state, if any (R120). -/
def instrFatal (op : Word) (i : Instr) (s : State) : Option Fatal :=
  match i with
  | .call _ => if s.sp.val = 16 then some (.stackOverflow op) else none
  | .ret => if s.sp.val = 0 then some (.stackUnderflow op) else none
  | .drw _ y n => boundsFatal op s (min n.val (32 - (s.getV y).toNat % 32))
  | .ldBVx _ => boundsFatal op s 3
  | .ldMemVx x => boundsFatal op s (x.val + 1)
  | .ldVxMem x => boundsFatal op s (x.val + 1)
  | .skp x => if (s.getV x).toNat > 15 then some (.keyIndex op (s.getV x)) else none
  | .sknp x => if (s.getV x).toNat > 15 then some (.keyIndex op (s.getV x)) else none
  | .cls | .sys _ | .jp _ | .jpV0 _ | .ldI _ => none
  | .seImm _ _ | .sneImm _ _ | .seReg _ _ | .sneReg _ _ => none
  | .ldImm _ _ | .addImm _ _ | .ldReg _ _ | .orReg _ _ | .andReg _ _ | .xorReg _ _ => none
  | .addReg _ _ | .sub _ _ | .shr _ _ | .subn _ _ | .shl _ _ | .rnd _ _ => none
  | .ldVxDT _ | .ldVxK _ | .ldDTVx _ | .ldSTVx _ | .addIVx _ | .ldFVx _ => none

/-- The fatal condition the next cycle raises, if any (60_exceptions.md R111, R120). -/
def expectedFatal (s : State) : Option Fatal :=
  if s.pc.toNat ≥ 4095 then some (.fetchBounds s.pc)
  else
    let op := wordOfBytes (s.mem.read s.pc.toNat) (s.mem.read (s.pc.toNat + 1))
    match decode op with
    | .unknown _ => some (.unknownOpcode op)
    | .instr i => instrFatal op i s

/-! ### Frames -/

/-- What an instruction may change. Each part is nothing unless it is given. -/
structure Footprint where
  /-- general registers -/
  V : Reg → Prop := fun _ => False
  /-- bytes of memory -/
  mem : Nat → Prop := fun _ => False
  /-- entries of the return stack -/
  stack : Reg → Prop := fun _ => False
  I : Prop := False
  pc : Prop := False
  sp : Prop := False
  DT : Prop := False
  ST : Prop := False
  /-- the framebuffer and draw_pending -/
  display : Prop := False
  /-- terminate and diag -/
  fatal : Prop := False
  /-- the model's draw counter -/
  draws : Prop := False

/-- Everything outside the footprint is unchanged from s to t. The keypad and the tone output are outside every
footprint: no instruction writes a latch (10_state.md R23), and the tone is the tick's (40_cycle.md R71). -/
def UnchangedOutside (f : Footprint) (s t : State) : Prop :=
  (∀ r, ¬ f.V r → t.getV r = s.getV r) ∧
  (∀ a, ¬ f.mem a → t.mem.read a = s.mem.read a) ∧
  (∀ j : Reg, ¬ f.stack j → t.stack[j.val] = s.stack[j.val]) ∧
  (¬ f.I → t.I = s.I) ∧
  (¬ f.pc → t.pc = s.pc) ∧
  (¬ f.sp → t.sp = s.sp) ∧
  (¬ f.DT → t.DT = s.DT) ∧
  (¬ f.ST → t.ST = s.ST) ∧
  (¬ f.display → t.fb = s.fb ∧ t.drawPending = s.drawPending) ∧
  (¬ f.fatal → t.terminate = s.terminate ∧ t.diag = s.diag) ∧
  (¬ f.draws → t.draws = s.draws) ∧
  t.key = s.key ∧ t.tone = s.tone

end Sys2Proof.Machine
end

