-- ==== Sys2Proof/Certificates/Slice0/Obligations.lean ====
section
/-! DEFINITION. The statements about the model, for the provers. Each docstring names the rules or the sections of spec/
that the statement rests on. -/

open Sys2Proof Sys2Proof.Machine

/-! ### Encoding -/

/-- Decoding the word of a well-formed instruction gives it back, every operand at every value (30_encoding.md). -/
def Obligations.DecodeUndoesEncode : Prop :=
  ∀ i : Instr, i.wf = true → decode (encode i) = .instr i

/-- A word that decodes to an instruction is that instruction's encoding, and the instruction is well-formed: no bit of
the word is lost (30_encoding.md, sections 1 and 2). -/
def Obligations.EncodeUndoesDecode : Prop :=
  ∀ (op : Word) (i : Instr), decode op = .instr i → encode i = op ∧ i.wf = true

/-- R54: a word that a row of the opcode map accepts decodes to an instruction of that row; a word that no row accepts
decodes to `Unknown(op)`. -/
def Obligations.OpcodeMapDecidesEveryWord : Prop :=
  opcodeRows.length = 35 ∧
  ∀ op : Word,
    (∀ r ∈ opcodeRows, rowAccepts r op = true → ∃ i, decode op = .instr i ∧ rowOf i = r) ∧
    ((∀ r ∈ opcodeRows, rowAccepts r op = false) → decode op = .unknown op)

/-- The illegal words are exactly those 30_encoding.md, section 3, lists (its list; not its counts). -/
def Obligations.IllegalWordsAreExactlyTheListedOnes : Prop :=
  ∀ op : Word,
    let g := op.toNat / 4096
    let n := op.toNat % 16
    let kk := op.toNat % 256
    decode op = .unknown op ↔
      ((g = 5 ∨ g = 9) ∧ n ≠ 0) ∨
      (g = 8 ∧ n ∈ [0x8, 0x9, 0xA, 0xB, 0xC, 0xD, 0xF]) ∨
      (g = 14 ∧ kk ∉ [0x9E, 0xA1]) ∨
      (g = 15 ∧ kk ∉ [0x07, 0x0A, 0x15, 0x18, 0x1E, 0x29, 0x33, 0x55, 0x65])

/-- Words written out from the spec's formats, one of each (30_encoding.md, sections 1 and 2; 95_test_vectors.md L2). -/
def Obligations.SampleWordsDecode : Prop :=
  decode 0x00E0#16 = .instr .cls ∧
  decode 0x01E0#16 = .instr (.sys 0x1E0#12) ∧
  decode 0x1208#16 = .instr (.jp 0x208#12) ∧
  decode 0x3142#16 = .instr (.seImm 1 0x42#8) ∧
  decode 0x8125#16 = .instr (.sub 1 2) ∧
  decode 0x5121#16 = .unknown 0x5121#16 ∧
  decode 0xDAB5#16 = .instr (.drw 10 11 5) ∧
  decode 0xF20A#16 = .instr (.ldVxK 2) ∧
  decode 0xFF65#16 = .instr (.ldVxMem 15)

/-! ### The cycle -/

/-- One cycle clears its outputs and fetches; a failed fetch raises FetchBounds without advancing pc; else pc is advanced
by 2 and the decoded instruction is executed, or UnknownOpcode raised; the Timer Tick ends every one of the three. So a
step runs the instruction that the bytes at pc decode to (40_cycle.md, section 1; 60_exceptions.md, section 1). The whole
effect of the two fatal conditions rests on the spec's own decisions D4 and D8 (log entry 13); that the outputs are fields
of the answered state is the model's choice (log entry 3). -/
def Obligations.CycleFetchesAdvancesExecutesTicks : Prop :=
  ∀ s : State,
    let op : Word := (s.mem.read s.pc.toNat).setWidth 16 <<< 8 ||| (s.mem.read (s.pc.toNat + 1)).setWidth 16
    let advanced : State := { s with tone := false, diag := none, pc := s.pc + 2 }
    (s.pc.toNat ≥ 4095 →
      step s = .next (timerTick
        { s with tone := false, diag := some (.fetchBounds s.pc), terminate := true })) ∧
    (s.pc.toNat < 4095 → ∀ i t, decode op = .instr i → exec i advanced = .next t →
      step s = .next (timerTick t)) ∧
    (s.pc.toNat < 4095 → decode op = .unknown op →
      step s = .next (timerTick { advanced with diag := some (.unknownOpcode op), terminate := true }))

/-- The Timer Tick takes one from DT while it is above 0; so does every cycle but one of Fx15, and DT stays 0 until Fx15
reloads it (40_cycle.md, sections 1 and 2). That a cycle which raises a fatal condition ticks as well is the spec's own
decision D8 (log entry 13). A cycle of Fx15 is the subject of LoadedTimersTickInTheSameCycle. -/
def Obligations.DelayTimerCountsDownEveryCycle : Prop :=
  (∀ s : State, (timerTick s).DT.toNat = s.DT.toNat - 1) ∧
  ∀ s t : State, step s = .next t → (∀ x, nextInstr s ≠ some (.ldDTVx x)) →
    t.DT.toNat = s.DT.toNat - 1

/-- The Timer Tick of every cycle takes one from ST while it is above 0, and the cycle's tone output is whether the tick
found ST nonzero. Rests on 40_cycle.md, section 2, with the spec's own decision D13 on the last tick. -/
def Obligations.SoundTimerCountsDownAndSounds : Prop :=
  ∀ s t : State, step s = .next t → (∀ x, nextInstr s ≠ some (.ldSTVx x)) →
    t.ST.toNat = s.ST.toNat - 1 ∧ t.tone = (s.ST != 0)

/-- A value loaded into a timer is decremented by the tick of the same cycle, and a loaded ST already sounds. Rests on the
spec's derived sentences (40_cycle.md, section 2, and 70_reset_and_hazards.md, section 2) and its decision D13. -/
def Obligations.LoadedTimersTickInTheSameCycle : Prop :=
  ∀ (s t : State) (x : Reg), step s = .next t →
    (nextInstr s = some (.ldDTVx x) → t.DT.toNat = (s.getV x).toNat - 1) ∧
    (nextInstr s = some (.ldSTVx x) →
      t.ST.toNat = (s.getV x).toNat - 1 ∧ t.tone = (s.getV x != 0))

/-- No step stops: whatever the state, the cycle answers a next state (60_exceptions.md, sections 1 and 3; the model's
log entry 8). -/
def Obligations.EveryStepAnswersANextState : Prop :=
  ∀ s : State, ∃ t, step s = .next t

/-- The outputs of a cycle are not read back: the next cycle is the same whatever they were. `tone` and `diag` are the
model's own fields (log entry 3; 10_state.md, section 5). -/
def Obligations.OutputsAreNotReadBack : Prop :=
  ∀ (s : State) (tone : Bool) (diag : Option Fatal), step { s with tone := tone, diag := diag } = step s

/-! ### Fatal conditions -/

/-- The record a cycle emits is the row of the table of fatal kinds that its state meets, with that row's info, and none
where no row is met (60_exceptions.md, section 1, with the spec's own decisions D4, D7, D9, D11). -/
def Obligations.DiagIsTheRowOfTheFatalTable : Prop :=
  ∀ s t : State, step s = .next t → t.diag = expectedFatal s

/-- A cycle that raises a fatal condition has no other effect than terminate, diag, the advance of pc (none for a fetch
fault) and the Timer Tick (60_exceptions.md, sections 1 and 3, with the spec's own decisions D7 and D8). -/
def Obligations.FatalConditionHasNoOtherEffect : Prop :=
  ∀ (s : State) (f : Fatal), expectedFatal s = some f →
    step s = .next (timerTick { s with
      tone := false
      diag := some f
      terminate := true
      pc := if s.pc.toNat ≥ 4095 then s.pc else s.pc + 2 })

/-- R26: every fatal condition raises terminate; nothing but `initialise` lowers it; no cycle reads it, and a raised
terminate does not stop the core. -/
def Obligations.TerminateIsStickyAndNotRead : Prop :=
  (∀ (o : HostOp) (s : State), (hostStep o s).1.terminate =
    match o with
    | .initialise => false
    | .cycle => s.terminate || (expectedFatal s).isSome
    | .load _ | .setKey _ | .readPixel _ | .readDraw | .readTerminate => s.terminate) ∧
  (∀ (s t : State), step s = .next t → step { s with terminate := true } = .next { t with terminate := true })

/-! ### Control transfer -/

/-- R73 and R75: SYS does nothing, whatever nnn, and its words are those of group 0 but 00E0 and 00EE; JP writes pc with
nnn zero-extended. -/
def Obligations.SysDoesNothingAndJpJumps : Prop :=
  (∀ nnn : Addr12, nnn ≠ 0x0E0#12 → nnn ≠ 0x0EE#12 → decode (0x0#4 ++ nnn) = .instr (.sys nnn)) ∧
  (∀ nnn : Addr12, decode (0x1#4 ++ nnn) = .instr (.jp nnn)) ∧
  ∀ (nnn : Addr12) (s : State),
    exec (.sys nnn) s = .next s ∧
    exec (.jp nnn) s = .next { s with pc := nnn.setWidth 16 }

/-- RET pops the entry below sp into pc and keeps it in the stack; with sp = 0 it raises StackUnderflow and changes
nothing else (41_control.md, section 1, with the spec's own decision D10). -/
def Obligations.RetPopsTheReturnAddress : Prop :=
  decode 0x00EE#16 = .instr .ret ∧
  ∀ s : State,
    (∀ (k : Nat) (h : k < 16), s.sp.val = k + 1 →
      exec .ret s = .next { s with sp := ⟨k, by omega⟩, pc := s.stack[k] }) ∧
    (s.sp.val = 0 →
      exec .ret s = .next { s with terminate := true, diag := some (.stackUnderflow 0x00EE#16) })

/-- CALL stores pc, already advanced, at stack[sp], adds one to sp and jumps; with sp = 16 it raises StackOverflow and
changes nothing else (41_control.md, section 2, with the spec's own decision D10). -/
def Obligations.CallPushesTheReturnAddress : Prop :=
  (∀ nnn : Addr12, decode (0x2#4 ++ nnn) = .instr (.call nnn)) ∧
  ∀ (nnn : Addr12) (s : State),
    (∀ h : s.sp.val < 16, exec (.call nnn) s = .next { s with
      stack := s.stack.set s.sp.val s.pc
      sp := ⟨s.sp.val + 1, by omega⟩
      pc := nnn.setWidth 16 }) ∧
    (s.sp.val = 16 →
      exec (.call nnn) s = .next { s with terminate := true, diag := some (.stackOverflow (0x2#4 ++ nnn)) })

/-- A RET executed after a CALL, with any work between them that keeps the stack, continues after the CALL and restores
sp; 16 CALLs fit (41_control.md, section 1; 10_state.md, section 4). -/
def Obligations.RetUndoesCall : Prop :=
  ∀ (nnn : Addr12) (s t u : State), s.sp.val < 16 → exec (.call nnn) s = .next t →
    u.sp = t.sp → u.stack = t.stack →
    exec .ret u = .next { u with sp := s.sp, pc := s.pc }

/-- R77 and R78: SE and SNE with an immediate add 2 more to pc exactly when Vx equals, or differs from, kk. -/
def Obligations.SkipsCompareWithAnImmediate : Prop :=
  (∀ (x : Reg) (kk : Byte), decode (0x3#4 ++ nibble x ++ kk) = .instr (.seImm x kk) ∧
    decode (0x4#4 ++ nibble x ++ kk) = .instr (.sneImm x kk)) ∧
  ∀ (x : Reg) (kk : Byte) (s : State),
    exec (.seImm x kk) s = .next (if s.V[x.val] = kk then { s with pc := s.pc + 2 } else s) ∧
    exec (.sneImm x kk) s = .next (if s.V[x.val] = kk then s else { s with pc := s.pc + 2 })

/-- R79 and R80: SE and SNE of two registers add 2 more to pc exactly when they are equal, or differ; with a low nibble
other than 0 their groups hold no instruction. -/
def Obligations.SkipsCompareTwoRegisters : Prop :=
  (∀ x y : Reg, decode (0x5#4 ++ nibble x ++ nibble y ++ 0x0#4) = .instr (.seReg x y) ∧
    decode (0x9#4 ++ nibble x ++ nibble y ++ 0x0#4) = .instr (.sneReg x y)) ∧
  (∀ (x y : Reg) (n : BitVec 4), n ≠ 0x0#4 →
    decode (0x5#4 ++ nibble x ++ nibble y ++ n) = .unknown (0x5#4 ++ nibble x ++ nibble y ++ n) ∧
    decode (0x9#4 ++ nibble x ++ nibble y ++ n) = .unknown (0x9#4 ++ nibble x ++ nibble y ++ n)) ∧
  ∀ (x y : Reg) (s : State),
    exec (.seReg x y) s = .next (if s.V[x.val] = s.V[y.val] then { s with pc := s.pc + 2 } else s) ∧
    exec (.sneReg x y) s = .next (if s.V[x.val] = s.V[y.val] then s else { s with pc := s.pc + 2 })

/-- JP V0, nnn writes pc with the sum of nnn and V0, never masked to 12 bits (41_control.md, section 4, with the spec's
own decision D3); the x digit is part of nnn. -/
def Obligations.JpV0AddsV0Unmasked : Prop :=
  (∀ nnn : Addr12, decode (0xB#4 ++ nnn) = .instr (.jpV0 nnn)) ∧
  ∀ (nnn : Addr12) (s : State), ∃ t, exec (.jpV0 nnn) s = .next t ∧
    t.pc.toNat = nnn.toNat + (s.V[0]).toNat ∧ t = { s with pc := t.pc }

/-! ### Register loads, arithmetic, logic, random -/

/-- R83 and R84: LD Vx, kk writes kk; ADD Vx, kk writes the sum modulo 256 and no flag. -/
def Obligations.ImmediateLoadAndAdd : Prop :=
  (∀ (x : Reg) (kk : Byte), decode (0x6#4 ++ nibble x ++ kk) = .instr (.ldImm x kk) ∧
    decode (0x7#4 ++ nibble x ++ kk) = .instr (.addImm x kk)) ∧
  ∀ (x : Reg) (kk : Byte) (s : State),
    exec (.ldImm x kk) s = .next { s with V := s.V.set x.val kk } ∧
    exec (.addImm x kk) s =
      .next { s with V := s.V.set x.val (BitVec.ofNat 8 (((s.V[x.val]).toNat + kk.toNat) % 256)) }

/-- R85 to R88: LD Vx, Vy copies; OR, AND and XOR write the bitwise result; VF is not written unless it is Vx. -/
def Obligations.CopyAndLogic : Prop :=
  (∀ x y : Reg,
    decode (0x8#4 ++ nibble x ++ nibble y ++ 0x0#4) = .instr (.ldReg x y) ∧
    decode (0x8#4 ++ nibble x ++ nibble y ++ 0x1#4) = .instr (.orReg x y) ∧
    decode (0x8#4 ++ nibble x ++ nibble y ++ 0x2#4) = .instr (.andReg x y) ∧
    decode (0x8#4 ++ nibble x ++ nibble y ++ 0x3#4) = .instr (.xorReg x y)) ∧
  ∀ (x y : Reg) (s : State),
    exec (.ldReg x y) s = .next { s with V := s.V.set x.val s.V[y.val] } ∧
    exec (.orReg x y) s = .next { s with V := s.V.set x.val (s.V[x.val] ||| s.V[y.val]) } ∧
    exec (.andReg x y) s = .next { s with V := s.V.set x.val (s.V[x.val] &&& s.V[y.val]) } ∧
    exec (.xorReg x y) s = .next { s with V := s.V.set x.val (s.V[x.val] ^^^ s.V[y.val]) }

/-- ADD Vx, Vy: VF receives the carry, then Vx the sum modulo 256 of the operands read after that write (42_alu.md,
section 3, with the spec's own decision D2 on the order). -/
def Obligations.AddWritesCarryThenSum : Prop :=
  (∀ x y : Reg, decode (0x8#4 ++ nibble x ++ nibble y ++ 0x4#4) = .instr (.addReg x y)) ∧
  ∀ (x y : Reg) (s : State),
    let c : Byte := if (s.V[x.val]).toNat + (s.V[y.val]).toNat > 255 then 1 else 0
    let V1 := s.V.set 15 c
    exec (.addReg x y) s =
      .next { s with V := V1.set x.val (BitVec.ofNat 8 (((V1[x.val]).toNat + (V1[y.val]).toNat) % 256)) }

/-- SUB and SUBN: VF receives 1 when the minuend is at least the subtrahend, else 0; then Vx the difference modulo 256 of
the operands read after that write (42_alu.md, section 3, with the spec's own decision D2 on the order). -/
def Obligations.SubtractWritesNoBorrowThenDifference : Prop :=
  (∀ x y : Reg, decode (0x8#4 ++ nibble x ++ nibble y ++ 0x5#4) = .instr (.sub x y) ∧
    decode (0x8#4 ++ nibble x ++ nibble y ++ 0x7#4) = .instr (.subn x y)) ∧
  ∀ (x y : Reg) (s : State),
    (let V1 := s.V.set 15 (if (s.V[x.val]).toNat ≥ (s.V[y.val]).toNat then 1 else 0)
     exec (.sub x y) s =
      .next { s with V := V1.set x.val (BitVec.ofNat 8 (((V1[x.val]).toNat + 256 - (V1[y.val]).toNat) % 256)) }) ∧
    (let V1 := s.V.set 15 (if (s.V[y.val]).toNat ≥ (s.V[x.val]).toNat then 1 else 0)
     exec (.subn x y) s =
      .next { s with V := V1.set x.val (BitVec.ofNat 8 (((V1[y.val]).toNat + 256 - (V1[x.val]).toNat) % 256)) })

/-- SHR and SHL: VF receives the bit of Vx shifted out, then Vx, read after that write, is shifted by one; y is not read
(42_alu.md, section 3, with the spec's own decision D2 on the order). -/
def Obligations.ShiftsWriteTheBitOutThenShift : Prop :=
  (∀ x y : Reg, decode (0x8#4 ++ nibble x ++ nibble y ++ 0x6#4) = .instr (.shr x y) ∧
    decode (0x8#4 ++ nibble x ++ nibble y ++ 0xE#4) = .instr (.shl x y)) ∧
  ∀ (x y : Reg) (s : State),
    (let V1 := s.V.set 15 (BitVec.ofNat 8 ((s.V[x.val]).toNat % 2))
     exec (.shr x y) s = .next { s with V := V1.set x.val (BitVec.ofNat 8 ((V1[x.val]).toNat / 2)) }) ∧
    (let V1 := s.V.set 15 (BitVec.ofNat 8 ((s.V[x.val]).toNat / 128))
     exec (.shl x y) s = .next { s with V := V1.set x.val (BitVec.ofNat 8 ((V1[x.val]).toNat * 2 % 256)) })

/-- The corner cases of the flag-producing forms where VF is an operand, as 42_alu.md, section 3, works them out (the
spec's own decision D2): VF as Vx, as Vy, and as both. -/
def Obligations.VfAsAnOperand : Prop :=
  ∀ (x y : Reg) (s : State), x ≠ 15 → y ≠ 15 →
    let fl (b : Bool) : Nat := if b then 1 else 0
    let a := (s.getV x).toNat
    let b := (s.getV y).toNat
    let f := (s.getV 15).toNat
    (∃ t, exec (.addReg 15 y) s = .next t ∧ (t.getV 15).toNat = (fl (f + b > 255) + b) % 256) ∧
    (∃ t, exec (.addReg x 15) s = .next t ∧ (t.getV 15).toNat = fl (a + f > 255) ∧
      (t.getV x).toNat = (a + fl (a + f > 255)) % 256) ∧
    (∃ t, exec (.addReg 15 15) s = .next t ∧ (t.getV 15).toNat = 2 * fl (2 * f > 255)) ∧
    (∃ t, exec (.sub 15 y) s = .next t ∧ (t.getV 15).toNat = (fl (f ≥ b) + 256 - b) % 256) ∧
    (∃ t, exec (.sub x 15) s = .next t ∧ (t.getV 15).toNat = fl (a ≥ f) ∧
      (t.getV x).toNat = (a + 256 - fl (a ≥ f)) % 256) ∧
    (∃ t, exec (.sub 15 15) s = .next t ∧ (t.getV 15).toNat = 0) ∧
    (∃ t, exec (.subn 15 y) s = .next t ∧ (t.getV 15).toNat = (b + 256 - fl (b ≥ f)) % 256) ∧
    (∃ t, exec (.subn x 15) s = .next t ∧ (t.getV 15).toNat = fl (f ≥ a) ∧
      (t.getV x).toNat = (fl (f ≥ a) + 256 - a) % 256) ∧
    (∃ t, exec (.subn 15 15) s = .next t ∧ (t.getV 15).toNat = 0) ∧
    (∃ t, exec (.shr 15 y) s = .next t ∧ (t.getV 15).toNat = 0) ∧
    (∃ t, exec (.shl 15 y) s = .next t ∧ (t.getV 15).toNat = 2 * (f / 128))

/-- The arithmetic laws where VF is no operand: sums and differences modulo 256, carry and no-borrow, shifts by one with
the bit shifted out (42_alu.md, section 1). -/
def Obligations.ArithmeticLawsAwayFromVf : Prop :=
  ∀ (x y : Reg) (s : State), x ≠ 15 → y ≠ 15 →
    let fl (b : Bool) : Nat := if b then 1 else 0
    let a := (s.getV x).toNat
    let b := (s.getV y).toNat
    (∃ t, exec (.addReg x y) s = .next t ∧ (t.getV x).toNat = (a + b) % 256 ∧ (t.getV 15).toNat = fl (a + b > 255)) ∧
    (∃ t, exec (.sub x y) s = .next t ∧ (t.getV x).toNat = (a + 256 - b) % 256 ∧ (t.getV 15).toNat = fl (a ≥ b)) ∧
    (∃ t, exec (.subn x y) s = .next t ∧ (t.getV x).toNat = (b + 256 - a) % 256 ∧ (t.getV 15).toNat = fl (b ≥ a)) ∧
    (∃ t, exec (.shr x y) s = .next t ∧ (t.getV x).toNat = a / 2 ∧ (t.getV 15).toNat = a % 2) ∧
    (∃ t, exec (.shl x y) s = .next t ∧ (t.getV x).toNat = a * 2 % 256 ∧ (t.getV 15).toNat = a / 128)

/-- RND writes Vx with a byte of the free random input masked by kk, so only the bits of kk can be set, and uses the draw
up. It holds for every value of the draw: the byte is a free value (42_alu.md, section 4; log entry 2; the draw counter
is the model's own). -/
def Obligations.RandomByteIsMasked : Prop :=
  (∀ (x : Reg) (kk : Byte), decode (0xC#4 ++ nibble x ++ kk) = .instr (.rnd x kk)) ∧
  ∀ (x : Reg) (kk : Byte) (s : State), ∃ r : Byte,
    r = Config.rnd s.draws ∧
    exec (.rnd x kk) s = .next { s with V := s.V.set x.val (r &&& kk), draws := s.draws + 1 }

/-! ### The index register and memory -/

/-- R95: LD I, nnn writes I with nnn zero-extended. -/
def Obligations.LoadIndexImmediate : Prop :=
  (∀ nnn : Addr12, decode (0xA#4 ++ nnn) = .instr (.ldI nnn)) ∧
  ∀ (nnn : Addr12) (s : State), exec (.ldI nnn) s = .next { s with I := nnn.setWidth 16 }

/-- ADD I, Vx adds modulo 65536 with no flag and no mask; LD F, Vx writes five times the whole byte (43_index_memory.md,
section 1, with the spec's own decision D6). -/
def Obligations.AddToIndexAndGlyphAddress : Prop :=
  (∀ x : Reg, decode (0xF#4 ++ nibble x ++ 0x1E#8) = .instr (.addIVx x) ∧
    decode (0xF#4 ++ nibble x ++ 0x29#8) = .instr (.ldFVx x)) ∧
  ∀ (x : Reg) (s : State),
    (∃ t, exec (.addIVx x) s = .next t ∧ t.I.toNat = (s.I.toNat + (s.getV x).toNat) % 65536 ∧ t = { s with I := t.I }) ∧
    (∃ t, exec (.ldFVx x) s = .next t ∧ t.I.toNat = (s.getV x).toNat * 5 ∧ t = { s with I := t.I })

/-- LD B, Vx stores hundreds, tens and units at I, I+1, I+2 and changes nothing else; if I+2 is above 4095 it raises
MemoryBounds and stores nothing (43_index_memory.md, section 2, with the spec's own decision D7). -/
def Obligations.BcdStoresThreeDigits : Prop :=
  (∀ x : Reg, decode (0xF#4 ++ nibble x ++ 0x33#8) = .instr (.ldBVx x)) ∧
  ∀ (x : Reg) (s : State),
    (s.I.toNat + 2 ≤ 4095 → ∃ t, exec (.ldBVx x) s = .next t ∧
      (t.mem.read s.I.toNat).toNat = (s.getV x).toNat / 100 ∧
      (t.mem.read (s.I.toNat + 1)).toNat = (s.getV x).toNat / 10 % 10 ∧
      (t.mem.read (s.I.toNat + 2)).toNat = (s.getV x).toNat % 10 ∧
      (∀ a, a < s.I.toNat ∨ s.I.toNat + 2 < a → t.mem.read a = s.mem.read a) ∧
      t = { s with mem := t.mem }) ∧
    (s.I.toNat + 2 > 4095 → exec (.ldBVx x) s = .next { s with
      terminate := true
      diag := some (.memoryBounds (0xF#4 ++ nibble x ++ 0x33#8) (max s.I.toNat 4096)) })

/-- LD [I], Vx stores V0..Vx at I..I+x and changes nothing else, I included; if I+x is above 4095 it raises MemoryBounds
and stores nothing (43_index_memory.md, section 2, with the spec's own decision D7). -/
def Obligations.StoreBlockWritesV0ToVx : Prop :=
  (∀ x : Reg, decode (0xF#4 ++ nibble x ++ 0x55#8) = .instr (.ldMemVx x)) ∧
  ∀ (x : Reg) (s : State),
    (s.I.toNat + x.val ≤ 4095 → ∃ t, exec (.ldMemVx x) s = .next t ∧
      (∀ r : Reg, r ≤ x → t.mem.read (s.I.toNat + r.val) = s.getV r) ∧
      (∀ a, a < s.I.toNat ∨ s.I.toNat + x.val < a → t.mem.read a = s.mem.read a) ∧
      t = { s with mem := t.mem }) ∧
    (s.I.toNat + x.val > 4095 → exec (.ldMemVx x) s = .next { s with
      terminate := true
      diag := some (.memoryBounds (0xF#4 ++ nibble x ++ 0x55#8) (max s.I.toNat 4096)) })

/-- LD Vx, [I] loads V0..Vx from I..I+x and changes nothing else, I included; if I+x is above 4095 it raises MemoryBounds
and loads nothing (43_index_memory.md, section 3, with the spec's own decision D7). -/
def Obligations.LoadBlockReadsV0ToVx : Prop :=
  (∀ x : Reg, decode (0xF#4 ++ nibble x ++ 0x65#8) = .instr (.ldVxMem x)) ∧
  ∀ (x : Reg) (s : State),
    (s.I.toNat + x.val ≤ 4095 → ∃ t, exec (.ldVxMem x) s = .next t ∧
      (∀ r : Reg, t.getV r = if r ≤ x then s.mem.read (s.I.toNat + r.val) else s.getV r) ∧
      t = { s with V := t.V }) ∧
    (s.I.toNat + x.val > 4095 → exec (.ldVxMem x) s = .next { s with
      terminate := true
      diag := some (.memoryBounds (0xF#4 ++ nibble x ++ 0x65#8) (max s.I.toNat 4096)) })

/-- A store is seen by every later access: a register block stored by LD [I], Vx comes back through LD Vx, [I], whatever
was in the registers meanwhile; and two bytes stored by LD [I], V1 are the fetch at that address, V0 the high byte
(20_memory.md, sections 3 and 4). -/
def Obligations.StoresAreSeenByLaterLoadsAndFetches : Prop :=
  (∀ (x : Reg) (s t u : State), s.I.toNat + x.val ≤ 4095 → exec (.ldMemVx x) s = .next t →
    u.mem = t.mem → u.I = s.I →
    ∃ w, exec (.ldVxMem x) u = .next w ∧ ∀ r : Reg, r ≤ x → w.getV r = s.getV r) ∧
  (∀ s t : State, s.I.toNat + 1 ≤ 4095 → exec (.ldMemVx 1) s = .next t →
    fetchWord { t with pc := s.I } = some (s.getV 0 ++ s.getV 1))

/-- Two memories in canonical form that read the same at every address are the same list
(the canonical form is the model's own, log entry 7; 20_memory.md, section 3). -/
def Obligations.CanonicalMemoriesThatReadAlikeAreEqual : Prop :=
  ∀ m1 m2 : Memory, m1.wf = true → m2.wf = true → (∀ a, m1.read a = m2.read a) → m1 = m2

/-! ### The framebuffer -/

/-- R102: CLS clears all 2048 pixels and raises draw_pending, and changes nothing else. -/
def Obligations.ClsClearsTheFramebuffer : Prop :=
  decode 0x00E0#16 = .instr .cls ∧
  ∀ s : State, ∃ t, exec .cls s = .next t ∧
    (∀ p : Nat, p < 2048 → t.fb[p]? = some false) ∧ t.drawPending = true ∧
    t = { s with fb := t.fb, drawPending := true }

/-- DRW, for the whole instruction: each visible pixel is exclusive-ored with the sprite's bit over it, where the sprite
covers rows yc.. and columns xc.. and is clipped at the right and bottom edges; VF is 1 exactly when a set pixel was
toggled; draw_pending is raised; nothing else changes. If an unclipped row lies above 4095, MemoryBounds is raised and
nothing is drawn (44_display.md, section 2, with the spec's own decision D7). -/
def Obligations.DrwXorsTheClippedSprite : Prop :=
  (∀ x y n : Fin 16, decode (0xD#4 ++ nibble x ++ nibble y ++ nibble n) = .instr (.drw x y n)) ∧
  ∀ (x y : Reg) (n : RowCount) (s : State),
    let xc := (s.getV x).toNat % 64
    let yc := (s.getV y).toNat % 32
    let rows := min n.val (32 - yc)
    let covers (px py : Nat) : Prop :=
      xc ≤ px ∧ px < xc + 8 ∧ px < 64 ∧ yc ≤ py ∧ py < yc + rows ∧
        (s.mem.read (s.I.toNat + (py - yc))).getLsbD (7 - (px - xc)) = true
    ((rows = 0 ∨ s.I.toNat + rows - 1 ≤ 4095) → ∃ t, exec (.drw x y n) s = .next t ∧
      (∀ px py, px < 64 → py < 32 →
        (covers px py → pixelAt t.fb px py = !pixelAt s.fb px py) ∧
        (¬ covers px py → pixelAt t.fb px py = pixelAt s.fb px py)) ∧
      ((∃ px py, covers px py ∧ pixelAt s.fb px py = true) → t.getV 15 = 1) ∧
      ((¬ ∃ px py, covers px py ∧ pixelAt s.fb px py = true) → t.getV 15 = 0) ∧
      t = { s with V := s.V.set 15 (t.getV 15), fb := t.fb, drawPending := true }) ∧
    (rows > 0 → s.I.toNat + rows - 1 > 4095 → exec (.drw x y n) s = .next { s with
      terminate := true
      diag := some (.memoryBounds (0xD#4 ++ nibble x ++ nibble y ++ nibble n) (max s.I.toNat 4096)) })

/-- Drawing the same sprite twice at the same place restores the framebuffer, and the second draw reports a collision
exactly when the first one set a pixel that was clear (44_display.md, section 2, corner cases; 90_conflicts.md C8).
VF must name neither coordinate, or the second draw starts elsewhere. -/
def Obligations.DrawingTwiceRestores : Prop :=
  ∀ (x y : Reg) (n : RowCount) (s t u : State), x ≠ 15 → y ≠ 15 →
    instrFatal (encode (.drw x y n)) (.drw x y n) s = none →
    exec (.drw x y n) s = .next t → exec (.drw x y n) t = .next u →
    u.fb = s.fb ∧
    (u.getV 15 = 1 ↔ ∃ px py, px < 64 ∧ py < 32 ∧ pixelAt s.fb px py = false ∧ pixelAt t.fb px py = true)

/-! ### Keypad and timers -/

/-- SKP and SKNP add 2 more to pc exactly when the key numbered Vx is down, or up; above 15 they raise KeyIndex and do not
skip (45_input_timers.md, section 1, with the spec's own decision D11). -/
def Obligations.KeySkipsReadTheLatch : Prop :=
  (∀ x : Reg, decode (0xE#4 ++ nibble x ++ 0x9E#8) = .instr (.skp x) ∧
    decode (0xE#4 ++ nibble x ++ 0xA1#8) = .instr (.sknp x)) ∧
  ∀ (x : Reg) (s : State),
    (∀ h : (s.getV x).toNat < 16,
      exec (.skp x) s = .next (if s.key[(s.getV x).toNat] = true then { s with pc := s.pc + 2 } else s) ∧
      exec (.sknp x) s = .next (if s.key[(s.getV x).toNat] = true then s else { s with pc := s.pc + 2 })) ∧
    ((s.getV x).toNat > 15 →
      exec (.skp x) s = .next { s with
        terminate := true
        diag := some (.keyIndex (0xE#4 ++ nibble x ++ 0x9E#8) (s.getV x)) } ∧
      exec (.sknp x) s = .next { s with
        terminate := true
        diag := some (.keyIndex (0xE#4 ++ nibble x ++ 0xA1#8) (s.getV x)) })

/-- R106: LD Vx, DT writes Vx with DT as the tick of its cycle has not yet changed it. -/
def Obligations.ReadDelayTimer : Prop :=
  (∀ x : Reg, decode (0xF#4 ++ nibble x ++ 0x07#8) = .instr (.ldVxDT x)) ∧
  (∀ (x : Reg) (s : State), exec (.ldVxDT x) s = .next { s with V := s.V.set x.val s.DT }) ∧
  ∀ (x : Reg) (s t : State), nextInstr s = some (.ldVxDT x) → step s = .next t → t.getV x = s.DT

/-- R107: LD Vx, K writes the index of the lowest key down and proceeds; with no key down pc goes back to this
instruction, so each waiting cycle changes nothing but the timers (and the cycle's outputs). -/
def Obligations.KeyWaitLoadsOrRepeats : Prop :=
  (∀ x : Reg, decode (0xF#4 ++ nibble x ++ 0x0A#8) = .instr (.ldVxK x)) ∧
  (∀ (x : Reg) (s : State),
    (∀ k : Reg, s.key[k.val] = true → (∀ j : Reg, j < k → s.key[j.val] = false) →
      exec (.ldVxK x) s = .next { s with V := s.V.set x.val (BitVec.ofNat 8 k.val) }) ∧
    ((∀ k : Reg, s.key[k.val] = false) → exec (.ldVxK x) s = .next { s with pc := s.pc - 2 })) ∧
  ∀ s : State, Waiting s → step s = .next (timerTick { s with tone := false, diag := none })

/-- LD DT, Vx and LD ST, Vx write the timers (45_input_timers.md, section 2). -/
def Obligations.LoadTimers : Prop :=
  (∀ x : Reg, decode (0xF#4 ++ nibble x ++ 0x15#8) = .instr (.ldDTVx x) ∧
    decode (0xF#4 ++ nibble x ++ 0x18#8) = .instr (.ldSTVx x)) ∧
  ∀ (x : Reg) (s : State),
    exec (.ldDTVx x) s = .next { s with DT := s.V[x.val] } ∧
    exec (.ldSTVx x) s = .next { s with ST := s.V[x.val] }

/-- An idle state, a jump to itself, stays: a further cycle changes only the timers and the cycle's outputs
(70_reset_and_hazards.md, section 4, the spec's own decision D39). -/
def Obligations.IdleStateOnlyTicks : Prop :=
  ∀ s : State, Idle s → step s = .next (timerTick { s with tone := false, diag := none })

/-! ### Frames -/

/-- The register forms change one register and, for the flag-producing ones, VF; RND also uses a draw (42_alu.md,
45_input_timers.md; 10_state.md, section 3). -/
def Obligations.RegisterFormsFrame : Prop :=
  ∀ (x y : Reg) (kk : Byte) (s t : State),
    (∀ i ∈ [Instr.ldImm x kk, .addImm x kk, .ldReg x y, .orReg x y, .andReg x y, .xorReg x y, .ldVxDT x],
      exec i s = .next t → UnchangedOutside { V := fun r => r = x } s t) ∧
    (exec (.rnd x kk) s = .next t → UnchangedOutside { V := fun r => r = x, draws := True } s t) ∧
    (∀ i ∈ [Instr.addReg x y, .sub x y, .shr x y, .subn x y, .shl x y],
      exec i s = .next t → UnchangedOutside { V := fun r => r = x ∨ r = 15 } s t)

/-- SYS changes nothing; jumps and skips change pc only; the key skips may raise KeyIndex instead (41_control.md;
45_input_timers.md, section 1). -/
def Obligations.PcFormsFrame : Prop :=
  ∀ (x y : Reg) (kk : Byte) (nnn : Addr12) (s t : State),
    (exec (.sys nnn) s = .next t → UnchangedOutside {} s t) ∧
    (∀ i ∈ [Instr.jp nnn, .jpV0 nnn, .seImm x kk, .sneImm x kk, .seReg x y, .sneReg x y],
      exec i s = .next t → UnchangedOutside { pc := True } s t) ∧
    (∀ i ∈ [Instr.skp x, .sknp x],
      exec i s = .next t → UnchangedOutside { pc := True, fatal := (s.getV x).toNat > 15 } s t)

/-- CALL changes pc, sp and the one entry stack[sp]; RET changes pc and sp and no entry; each may raise its fatal condition
instead (41_control.md, sections 1 and 2). -/
def Obligations.StackFormsFrame : Prop :=
  ∀ (nnn : Addr12) (s t : State),
    (exec (.call nnn) s = .next t →
      UnchangedOutside { pc := True, sp := True, stack := fun j => j.val = s.sp.val, fatal := s.sp.val = 16 } s t) ∧
    (exec .ret s = .next t → UnchangedOutside { pc := True, sp := True, fatal := s.sp.val = 0 } s t)

/-- The stores change the bytes at the effective address and no other: three for LD B, x+1 for LD [I]; LD Vx, [I] changes
V0..Vx and no byte of memory; each may raise MemoryBounds instead (43_index_memory.md, sections 2 and 3). -/
def Obligations.MemoryFormsFrame : Prop :=
  ∀ (x : Reg) (s t : State),
    (exec (.ldBVx x) s = .next t →
      UnchangedOutside { mem := fun a => s.base ≤ a ∧ a < s.base + 3, fatal := s.base + 2 > 4095 } s t) ∧
    (exec (.ldMemVx x) s = .next t →
      UnchangedOutside { mem := fun a => s.base ≤ a ∧ a < s.base + (x.val + 1), fatal := s.base + x.val > 4095 } s t) ∧
    (exec (.ldVxMem x) s = .next t →
      UnchangedOutside { V := fun r => r ≤ x, fatal := s.base + x.val > 4095 } s t)

/-- CLS changes the framebuffer and draw_pending; DRW changes these and VF, or raises MemoryBounds when it has an unclipped
row above 4095, so never with n = 0; no byte of memory changes (44_display.md, with the spec's own decision D7). -/
def Obligations.DisplayFormsFrame : Prop :=
  ∀ (x y : Reg) (n : RowCount) (s t : State),
    (exec .cls s = .next t → UnchangedOutside { display := True } s t) ∧
    (exec (.drw x y n) s = .next t →
      UnchangedOutside
        { V := fun r => r = 15
          display := True
          fatal := 0 < visibleRows n (startRow (s.getV y)) ∧
            s.base + visibleRows n (startRow (s.getV y)) > 4096 } s t)

/-- LD I, ADD I and LD F change I only; LD Vx, K changes Vx or pc; LD DT and LD ST change their timer only
(43_index_memory.md, section 1; 45_input_timers.md, section 2). -/
def Obligations.IndexTimerAndKeyFormsFrame : Prop :=
  ∀ (x : Reg) (nnn : Addr12) (s t : State),
    (∀ i ∈ [Instr.ldI nnn, .addIVx x, .ldFVx x], exec i s = .next t → UnchangedOutside { I := True } s t) ∧
    (exec (.ldVxK x) s = .next t →
      UnchangedOutside { V := fun r => r = x ∧ s.lowestKey ≠ none, pc := s.lowestKey = none } s t) ∧
    (exec (.ldDTVx x) s = .next t → UnchangedOutside { DT := True } s t) ∧
    (exec (.ldSTVx x) s = .next t → UnchangedOutside { ST := True } s t)

/-! ### Whole-machine rules -/

/-- Who may write the keys, the framebuffer, draw_pending, memory, I, sp and the stack, over every cycle: no latch is ever
written; the framebuffer and draw_pending only by CLS and DRW, and a cycle never lowers draw_pending; memory only by LD B
and LD [I], at the addresses they compute; I only by LD I, ADD I and LD F; sp and the stack only by CALL and RET
(10_state.md, sections 2 and 4; 20_memory.md, section 1). -/
def Obligations.OnlyTheNamedInstructionsWrite : Prop :=
  ∀ s t : State, step s = .next t →
    t.key = s.key ∧
    (t.fb ≠ s.fb ∨ t.drawPending ≠ s.drawPending →
      t.drawPending = true ∧ (nextInstr s = some .cls ∨ ∃ x y n, nextInstr s = some (.drw x y n))) ∧
    (∀ a, t.mem.read a ≠ s.mem.read a →
      a < 4096 ∧
      ((∃ x, nextInstr s = some (.ldBVx x) ∧ s.I.toNat ≤ a ∧ a ≤ s.I.toNat + 2) ∨
       (∃ x, nextInstr s = some (.ldMemVx x) ∧ s.I.toNat ≤ a ∧ a ≤ s.I.toNat + x.val))) ∧
    (t.I ≠ s.I → ∃ x nnn, nextInstr s = some (.ldI nnn) ∨ nextInstr s = some (.addIVx x) ∨
      nextInstr s = some (.ldFVx x)) ∧
    (t.sp ≠ s.sp ∨ t.stack ≠ s.stack → ∃ nnn, nextInstr s = some (.call nnn) ∨ nextInstr s = some .ret)

/-- VF changes only through the six flag-producing instructions, through an instruction that names it as its destination,
or through LD VF, [I] (10_state.md, section 3). -/
def Obligations.OnlyTheNamedInstructionsWriteVf : Prop :=
  ∀ (i : Instr) (s t : State), exec i s = .next t → t.getV 15 ≠ s.getV 15 →
    (∃ x y n, i ∈ [Instr.addReg x y, .sub x y, .shr x y, .subn x y, .shl x y, .drw x y n]) ∨
    (∃ y kk, i ∈ [Instr.ldImm 15 kk, .addImm 15 kk, .ldReg 15 y, .orReg 15 y, .andReg 15 y, .xorReg 15 y, .rnd 15 kk,
      .ldVxDT 15, .ldVxK 15, .ldVxMem 15])

/-- The pc after a cycle that executes an instruction: the fetched address plus 2; for a skip that or plus 4; for a key
wait that, or the fetched address itself with no key down; JP, CALL, RET and JP V0 are not constrained here
(40_cycle.md, section 1). A cycle that executes none (a fetch fault, an unknown word) is the subject of
CycleFetchesAdvancesExecutesTicks. -/
def Obligations.PcAdvancesByTwoOrFour : Prop :=
  ∀ (s t : State) (i : Instr), nextInstr s = some i → step s = .next t →
    match i with
    | .jp _ | .call _ | .ret | .jpV0 _ => True
    | .ldVxK _ => t.pc = s.pc + 2 ∨ (t.pc = s.pc ∧ ∀ k : Reg, s.keyDown k = false)
    | .seImm _ _ | .sneImm _ _ | .seReg _ _ | .sneReg _ _ | .skp _ | .sknp _ => t.pc = s.pc + 2 ∨ t.pc = s.pc + 4
    | _ => t.pc = s.pc + 2

/-! ### The invariant -/

/-- Every step keeps the invariant: memory in canonical form, at most one key down (10_state.md, sections 2 and 4; the
canonical form is the model's own, log entry 7). -/
def Obligations.StepKeepsTheInvariant : Prop :=
  ∀ s t : State, s.Inv → step s = .next t → t.Inv

/-- Every host operation keeps the invariant: memory in canonical form, at most one key down (10_state.md, section 4;
20_memory.md, section 1; 60_exceptions.md, section 5; the canonical form is the model's own, log entry 7). -/
def Obligations.HostOperationsKeepTheInvariant : Prop :=
  ∀ (o : HostOp) (s : State), s.Inv → (hostStep o s).1.Inv

/-- The state after reset meets the invariant: its memory is in canonical form and at most one key is down in it
(10_state.md, sections 4 and 6; the canonical form is the model's own, log entry 7). -/
def Obligations.ResetMeetsTheInvariant : Prop := State.reset.Inv

/-! ### Reset and the host operations -/

/-- Every element of the state after `initialise`, from any state: FONT at 0..79 and 0 elsewhere, pc = 512, and everything
else zero (10_state.md, section 6; V and the stack by the spec's own decision D18, log entry 17; FONT is free). -/
def Obligations.InitialiseResetsEverything : Prop :=
  ∀ s : State,
    let t := (hostStep .initialise s).1
    (∀ a, a < 80 → t.mem.read a = Config.font a) ∧ (∀ a, 80 ≤ a → t.mem.read a = 0) ∧
    (∀ r : Reg, t.V[r.val] = 0) ∧ t.I = 0 ∧ t.pc = 512 ∧ t.sp.val = 0 ∧
    (∀ j : Reg, t.stack[j.val] = 0) ∧ t.DT = 0 ∧ t.ST = 0 ∧
    (∀ k : Reg, t.key[k.val] = false) ∧ (∀ p : Fin 2048, t.fb[p.val] = false) ∧
    t.drawPending = false ∧ t.terminate = false ∧
    t = { State.reset with draws := s.draws }

/-- `load` places an image of at most 3584 bytes at 512 upward and changes nothing else; a longer one, or an unreadable
source, is a Failure that changes nothing (70_reset_and_hazards.md, section 1, with the spec's own decision D15). -/
def Obligations.LoadPlacesTheImageOrFails : Prop :=
  ∀ s : State,
    hostStep (.load none) s = (s, .load .failure) ∧
    ∀ b : List Byte,
      (b.length > 3584 → hostStep (.load (some b)) s = (s, .load .failure)) ∧
      (b.length ≤ 3584 → ∃ t, hostStep (.load (some b)) s = (t, .load .success) ∧
        (∀ (j : Nat) (h : j < b.length), t.mem.read (512 + j) = b[j]) ∧
        (∀ a, a < 512 ∨ 512 + b.length ≤ a → t.mem.read a = s.mem.read a) ∧
        t = { s with mem := t.mem })

/-- `set_key` leaves exactly the latch k set and changes nothing else (60_exceptions.md, section 5, with the spec's own
decision D16). -/
def Obligations.SetKeyLeavesOneLatchSet : Prop :=
  ∀ (k : Reg) (s : State), ∃ t, hostStep (.setKey k) s = (t, .none) ∧
    (∀ j : Reg, t.key[j.val] = decide (j = k)) ∧ t = { s with key := t.key }

/-- R131, R132 and R133: `read_pixel` answers the pixel of an index in 0..2047 and no value elsewhere, with no change;
`read_draw` answers draw_pending and lowers it, so a second read answers not pending; `read_terminate` answers
terminate, with no change. -/
def Obligations.HostReads : Prop :=
  ∀ s : State,
    (∀ p : Fin 2048, hostStep (.readPixel p.val) s = (s, .pixel (some s.fb[p.val]))) ∧
    (∀ i : Int, i < 0 ∨ 2047 < i → hostStep (.readPixel i) s = (s, .pixel none)) ∧
    hostStep .readDraw s = ({ s with drawPending := false }, .flag s.drawPending) ∧
    (hostStep .readDraw (hostStep .readDraw s).1).2 = .flag false ∧
    hostStep .readTerminate s = (s, .flag s.terminate)
end

