-- ==== Sys2Proof/Laws/Memory.lean ====
section
/-! SUPPORT. What each memory operation does to a read (read after write), and that each keeps the canonical form. -/

namespace Sys2Proof.Machine

open Sys2Proof

@[simp] theorem Memory.read_nil (a : Nat) : Memory.read [] a = resetByte a := rfl

theorem Memory.read_cons (b : Nat) (v : Byte) (m : Memory) (a : Nat) :
    Memory.read ((b, v) :: m) a = if a = b then v else m.read a := rfl

theorem resetByte_above_font {a : Nat} (h : 80 ≤ a) : resetByte a = 0 := by
  simp [resetByte, Nat.not_lt.2 h]

theorem resetByte_font {a : Nat} (h : a < 80) : resetByte a = Config.font a := by
  simp [resetByte, h]

/-! ### Read after write -/

theorem Memory.read_insert (m : Memory) (a : Nat) (v : Byte) (b : Nat) :
    (m.insert a v).read b = if b = a then v else m.read b := by
  induction m with
  | nil => rfl
  | cons c m ih =>
    obtain ⟨k, w⟩ := c
    by_cases h1 : a < k
    · simp [Memory.insert, h1, Memory.read_cons]
    · by_cases h2 : a = k
      · subst h2
        by_cases h3 : b = a <;> simp [Memory.insert, Memory.read_cons, h3]
      · by_cases h3 : b = k
        · have h4 : b ≠ a := fun e => h2 (e.symm.trans h3)
          simp [Memory.insert, h1, h2, Memory.read_cons, h3, Ne.symm h2]
        · simp [Memory.insert, h1, h2, Memory.read_cons, h3, ih]

theorem Memory.read_erase (m : Memory) (a b : Nat) :
    (m.erase a).read b = if b = a then resetByte a else m.read b := by
  induction m with
  | nil => by_cases h : b = a <;> simp [Memory.erase, h]
  | cons c m ih =>
    obtain ⟨k, w⟩ := c
    by_cases h1 : a = k
    · subst h1
      by_cases h2 : b = a
      · subst h2; simpa [Memory.erase] using ih
      · simp [Memory.erase, Memory.read_cons, ih, h2]
    · by_cases h2 : b = k
      · have h3 : b ≠ a := fun e => h1 (e.symm.trans h2)
        simp [Memory.erase, h1, Memory.read_cons, h2, Ne.symm h1]
      · simp [Memory.erase, h1, Memory.read_cons, h2, ih]

/-- Everything one write does: the cell reads as the byte, every other cell as before (20_memory.md R38, R43). -/
theorem Memory.read_write (m : Memory) {a : Nat} (h : a < 4096) (v : Byte) (b : Nat) :
    (m.write a v).read b = if b = a then v else m.read b := by
  by_cases hv : v = resetByte a
  · simp [Memory.write, h, hv, Memory.read_erase]
  · simp [Memory.write, h, hv, Memory.read_insert]

/-- Above 4095 there is no cell to write (log entry 7). -/
theorem Memory.write_above (m : Memory) {a : Nat} (h : ¬ a < 4096) (v : Byte) : m.write a v = m := by
  simp [Memory.write, h]

theorem Memory.read_write_other (m : Memory) (a : Nat) (v : Byte) {b : Nat} (h : b ≠ a) :
    (m.write a v).read b = m.read b := by
  by_cases ha : a < 4096
  · simp [Memory.read_write m ha, h]
  · simp [Memory.write_above m ha]

theorem Memory.read_writeList_outside (vs : List Byte) (m : Memory) (a : Nat) {b : Nat}
    (h : b < a ∨ a + vs.length ≤ b) : (m.writeList a vs).read b = m.read b := by
  induction vs generalizing m a with
  | nil => rfl
  | cons v vs ih =>
    simp only [List.length_cons] at h
    rw [Memory.writeList, ih _ _ (by omega), Memory.read_write_other _ _ _ (by omega)]

theorem Memory.read_writeList_inside (vs : List Byte) (m : Memory) (a j : Nat) (hj : j < vs.length)
    (h : a + vs.length ≤ 4096) : (m.writeList a vs).read (a + j) = vs[j] := by
  induction vs generalizing m a j with
  | nil => simp at hj
  | cons v vs ih =>
    simp only [List.length_cons] at h hj
    rw [Memory.writeList]
    cases j with
    | zero =>
      rw [Memory.read_writeList_outside _ _ _ (by omega), Memory.read_write _ (by omega)]
      simp
    | succ j =>
      have := ih (m.write a v) (a + 1) j (by omega) (by omega)
      rw [show a + (j + 1) = a + 1 + j by omega, this]
      rfl

/-! ### The canonical form is kept -/

theorem Memory.wfAbove_cons (lo : Option Nat) (a : Nat) (v : Byte) (m : Memory) :
    Memory.wfAbove lo ((a, v) :: m) = true ↔
      (∀ b, lo = some b → b < a) ∧ a < 4096 ∧ v ≠ resetByte a ∧ Memory.wfAbove (some a) m = true := by
  cases lo <;> simp [Memory.wfAbove, and_assoc]

theorem Memory.wfAbove_weaken {lo lo' : Option Nat} {m : Memory} (h : Memory.wfAbove lo m = true)
    (hlo : ∀ b', lo' = some b' → ∃ b, lo = some b ∧ b' ≤ b) : Memory.wfAbove lo' m = true := by
  cases m with
  | nil => simp [Memory.wfAbove]
  | cons c m =>
    obtain ⟨a, v⟩ := c
    rw [Memory.wfAbove_cons] at h ⊢
    refine ⟨fun b' hb' => ?_, h.2⟩
    obtain ⟨b, hb, hle⟩ := hlo b' hb'
    exact Nat.lt_of_le_of_lt hle (h.1 b hb)

theorem Memory.wfAbove_insert {m : Memory} {lo : Option Nat} {a : Nat} {v : Byte}
    (h : Memory.wfAbove lo m = true) (hlo : ∀ b, lo = some b → b < a) (ha : a < 4096) (hv : v ≠ resetByte a) :
    Memory.wfAbove lo (m.insert a v) = true := by
  induction m generalizing lo with
  | nil => exact (Memory.wfAbove_cons _ _ _ _).2 ⟨hlo, ha, hv, rfl⟩
  | cons c m ih =>
    obtain ⟨k, w⟩ := c
    rw [Memory.wfAbove_cons] at h
    by_cases h1 : a < k
    · simp only [Memory.insert, h1, if_true]
      refine (Memory.wfAbove_cons _ _ _ _).2 ⟨hlo, ha, hv, (Memory.wfAbove_cons _ _ _ _).2 ⟨?_, h.2⟩⟩
      rintro b ⟨⟩; exact h1
    · by_cases h2 : a = k
      · subst h2
        simp only [Memory.insert, lt_irrefl, if_true, if_false]
        exact (Memory.wfAbove_cons _ _ _ _).2 ⟨hlo, ha, hv, h.2.2.2⟩
      · simp only [Memory.insert, h1, h2, if_false]
        refine (Memory.wfAbove_cons _ _ _ _).2 ⟨h.1, h.2.1, h.2.2.1, ih h.2.2.2 ?_⟩
        rintro b ⟨⟩; omega

theorem Memory.wfAbove_erase {m : Memory} {lo : Option Nat} (a : Nat) (h : Memory.wfAbove lo m = true) :
    Memory.wfAbove lo (m.erase a) = true := by
  induction m generalizing lo with
  | nil => exact h
  | cons c m ih =>
    obtain ⟨k, w⟩ := c
    rw [Memory.wfAbove_cons] at h
    by_cases h1 : a = k
    · simp only [Memory.erase, h1, if_true]
      rw [← h1]
      exact ih (Memory.wfAbove_weaken h.2.2.2 fun b' hb' => ⟨k, rfl, Nat.le_of_lt (h.1 b' hb')⟩)
    · simp only [Memory.erase, h1, if_false]
      exact (Memory.wfAbove_cons _ _ _ _).2 ⟨h.1, h.2.1, h.2.2.1, ih h.2.2.2⟩

theorem Memory.wf_nil : Memory.wf [] = true := rfl

theorem Memory.wf_write {m : Memory} (h : m.wf = true) (a : Nat) (v : Byte) : (m.write a v).wf = true := by
  by_cases ha : a < 4096
  · by_cases hv : v = resetByte a
    · rw [Memory.write, if_pos ha, if_pos hv]
      exact Memory.wfAbove_erase a h
    · rw [Memory.write, if_pos ha, if_neg hv]
      exact Memory.wfAbove_insert h (fun _ hb => nomatch hb) ha hv
  · rwa [Memory.write_above m ha]

theorem Memory.wf_writeList {m : Memory} (h : m.wf = true) (a : Nat) (vs : List Byte) :
    (m.writeList a vs).wf = true := by
  induction vs generalizing m a with
  | nil => exact h
  | cons v vs ih => exact ih (Memory.wf_write h a v) (a + 1)

end Sys2Proof.Machine
end

