-- ==== Sys2Proof/Laws/State.lean ====
section
/-! SUPPORT. One lemma per field for each named update of the state, all true by definition, so that no proof unfolds a
record update; and what each update does to a register read. -/

namespace Sys2Proof.Machine

open Sys2Proof

/-! ### setV -/

@[simp] theorem setV_mem (s : State) (r : Reg) (v : Byte) : (s.setV r v).mem = s.mem := rfl
@[simp] theorem setV_V (s : State) (r : Reg) (v : Byte) : (s.setV r v).V = s.V.set r.val v := rfl
@[simp] theorem setV_I (s : State) (r : Reg) (v : Byte) : (s.setV r v).I = s.I := rfl
@[simp] theorem setV_pc (s : State) (r : Reg) (v : Byte) : (s.setV r v).pc = s.pc := rfl
@[simp] theorem setV_sp (s : State) (r : Reg) (v : Byte) : (s.setV r v).sp = s.sp := rfl
@[simp] theorem setV_stack (s : State) (r : Reg) (v : Byte) : (s.setV r v).stack = s.stack := rfl
@[simp] theorem setV_DT (s : State) (r : Reg) (v : Byte) : (s.setV r v).DT = s.DT := rfl
@[simp] theorem setV_ST (s : State) (r : Reg) (v : Byte) : (s.setV r v).ST = s.ST := rfl
@[simp] theorem setV_key (s : State) (r : Reg) (v : Byte) : (s.setV r v).key = s.key := rfl
@[simp] theorem setV_fb (s : State) (r : Reg) (v : Byte) : (s.setV r v).fb = s.fb := rfl
@[simp] theorem setV_drawPending (s : State) (r : Reg) (v : Byte) : (s.setV r v).drawPending = s.drawPending := rfl
@[simp] theorem setV_terminate (s : State) (r : Reg) (v : Byte) : (s.setV r v).terminate = s.terminate := rfl
@[simp] theorem setV_tone (s : State) (r : Reg) (v : Byte) : (s.setV r v).tone = s.tone := rfl
@[simp] theorem setV_diag (s : State) (r : Reg) (v : Byte) : (s.setV r v).diag = s.diag := rfl
@[simp] theorem setV_draws (s : State) (r : Reg) (v : Byte) : (s.setV r v).draws = s.draws := rfl
@[simp] theorem setV_keyDown (s : State) (r : Reg) (v : Byte) (k : Reg) : (s.setV r v).keyDown k = s.keyDown k := rfl
@[simp] theorem setV_base (s : State) (r : Reg) (v : Byte) : (s.setV r v).base = s.base := rfl

/-! ### setI -/

@[simp] theorem setI_mem (s : State) (v : Word) : (s.setI v).mem = s.mem := rfl
@[simp] theorem setI_V (s : State) (v : Word) : (s.setI v).V = s.V := rfl
@[simp] theorem setI_I (s : State) (v : Word) : (s.setI v).I = v := rfl
@[simp] theorem setI_pc (s : State) (v : Word) : (s.setI v).pc = s.pc := rfl
@[simp] theorem setI_sp (s : State) (v : Word) : (s.setI v).sp = s.sp := rfl
@[simp] theorem setI_stack (s : State) (v : Word) : (s.setI v).stack = s.stack := rfl
@[simp] theorem setI_DT (s : State) (v : Word) : (s.setI v).DT = s.DT := rfl
@[simp] theorem setI_ST (s : State) (v : Word) : (s.setI v).ST = s.ST := rfl
@[simp] theorem setI_key (s : State) (v : Word) : (s.setI v).key = s.key := rfl
@[simp] theorem setI_fb (s : State) (v : Word) : (s.setI v).fb = s.fb := rfl
@[simp] theorem setI_drawPending (s : State) (v : Word) : (s.setI v).drawPending = s.drawPending := rfl
@[simp] theorem setI_terminate (s : State) (v : Word) : (s.setI v).terminate = s.terminate := rfl
@[simp] theorem setI_tone (s : State) (v : Word) : (s.setI v).tone = s.tone := rfl
@[simp] theorem setI_diag (s : State) (v : Word) : (s.setI v).diag = s.diag := rfl
@[simp] theorem setI_draws (s : State) (v : Word) : (s.setI v).draws = s.draws := rfl
@[simp] theorem setI_getV (s : State) (v : Word) (q : Reg) : (s.setI v).getV q = s.getV q := rfl
@[simp] theorem setI_keyDown (s : State) (v : Word) (k : Reg) : (s.setI v).keyDown k = s.keyDown k := rfl

/-! ### setPc -/

@[simp] theorem setPc_mem (s : State) (w : Word) : (s.setPc w).mem = s.mem := rfl
@[simp] theorem setPc_V (s : State) (w : Word) : (s.setPc w).V = s.V := rfl
@[simp] theorem setPc_I (s : State) (w : Word) : (s.setPc w).I = s.I := rfl
@[simp] theorem setPc_pc (s : State) (w : Word) : (s.setPc w).pc = w := rfl
@[simp] theorem setPc_sp (s : State) (w : Word) : (s.setPc w).sp = s.sp := rfl
@[simp] theorem setPc_stack (s : State) (w : Word) : (s.setPc w).stack = s.stack := rfl
@[simp] theorem setPc_DT (s : State) (w : Word) : (s.setPc w).DT = s.DT := rfl
@[simp] theorem setPc_ST (s : State) (w : Word) : (s.setPc w).ST = s.ST := rfl
@[simp] theorem setPc_key (s : State) (w : Word) : (s.setPc w).key = s.key := rfl
@[simp] theorem setPc_fb (s : State) (w : Word) : (s.setPc w).fb = s.fb := rfl
@[simp] theorem setPc_drawPending (s : State) (w : Word) : (s.setPc w).drawPending = s.drawPending := rfl
@[simp] theorem setPc_terminate (s : State) (w : Word) : (s.setPc w).terminate = s.terminate := rfl
@[simp] theorem setPc_tone (s : State) (w : Word) : (s.setPc w).tone = s.tone := rfl
@[simp] theorem setPc_diag (s : State) (w : Word) : (s.setPc w).diag = s.diag := rfl
@[simp] theorem setPc_draws (s : State) (w : Word) : (s.setPc w).draws = s.draws := rfl
@[simp] theorem setPc_getV (s : State) (w : Word) (q : Reg) : (s.setPc w).getV q = s.getV q := rfl
@[simp] theorem setPc_keyDown (s : State) (w : Word) (k : Reg) : (s.setPc w).keyDown k = s.keyDown k := rfl
@[simp] theorem setPc_base (s : State) (w : Word) : (s.setPc w).base = s.base := rfl

/-! ### advancePc -/

@[simp] theorem advancePc_mem (s : State) : s.advancePc.mem = s.mem := rfl
@[simp] theorem advancePc_V (s : State) : s.advancePc.V = s.V := rfl
@[simp] theorem advancePc_I (s : State) : s.advancePc.I = s.I := rfl
@[simp] theorem advancePc_pc (s : State) : s.advancePc.pc = s.pc + 2 := rfl
@[simp] theorem advancePc_sp (s : State) : s.advancePc.sp = s.sp := rfl
@[simp] theorem advancePc_stack (s : State) : s.advancePc.stack = s.stack := rfl
@[simp] theorem advancePc_DT (s : State) : s.advancePc.DT = s.DT := rfl
@[simp] theorem advancePc_ST (s : State) : s.advancePc.ST = s.ST := rfl
@[simp] theorem advancePc_key (s : State) : s.advancePc.key = s.key := rfl
@[simp] theorem advancePc_fb (s : State) : s.advancePc.fb = s.fb := rfl
@[simp] theorem advancePc_drawPending (s : State) : s.advancePc.drawPending = s.drawPending := rfl
@[simp] theorem advancePc_terminate (s : State) : s.advancePc.terminate = s.terminate := rfl
@[simp] theorem advancePc_tone (s : State) : s.advancePc.tone = s.tone := rfl
@[simp] theorem advancePc_diag (s : State) : s.advancePc.diag = s.diag := rfl
@[simp] theorem advancePc_draws (s : State) : s.advancePc.draws = s.draws := rfl
@[simp] theorem advancePc_getV (s : State) (q : Reg) : s.advancePc.getV q = s.getV q := rfl
@[simp] theorem advancePc_keyDown (s : State) (k : Reg) : s.advancePc.keyDown k = s.keyDown k := rfl
@[simp] theorem advancePc_base (s : State) : s.advancePc.base = s.base := rfl

/-! ### consumeDraw -/

@[simp] theorem consumeDraw_mem (s : State) : s.consumeDraw.mem = s.mem := rfl
@[simp] theorem consumeDraw_V (s : State) : s.consumeDraw.V = s.V := rfl
@[simp] theorem consumeDraw_I (s : State) : s.consumeDraw.I = s.I := rfl
@[simp] theorem consumeDraw_pc (s : State) : s.consumeDraw.pc = s.pc := rfl
@[simp] theorem consumeDraw_sp (s : State) : s.consumeDraw.sp = s.sp := rfl
@[simp] theorem consumeDraw_stack (s : State) : s.consumeDraw.stack = s.stack := rfl
@[simp] theorem consumeDraw_DT (s : State) : s.consumeDraw.DT = s.DT := rfl
@[simp] theorem consumeDraw_ST (s : State) : s.consumeDraw.ST = s.ST := rfl
@[simp] theorem consumeDraw_key (s : State) : s.consumeDraw.key = s.key := rfl
@[simp] theorem consumeDraw_fb (s : State) : s.consumeDraw.fb = s.fb := rfl
@[simp] theorem consumeDraw_drawPending (s : State) : s.consumeDraw.drawPending = s.drawPending := rfl
@[simp] theorem consumeDraw_terminate (s : State) : s.consumeDraw.terminate = s.terminate := rfl
@[simp] theorem consumeDraw_tone (s : State) : s.consumeDraw.tone = s.tone := rfl
@[simp] theorem consumeDraw_diag (s : State) : s.consumeDraw.diag = s.diag := rfl
@[simp] theorem consumeDraw_draws (s : State) : s.consumeDraw.draws = s.draws + 1 := rfl
@[simp] theorem consumeDraw_getV (s : State) (q : Reg) : s.consumeDraw.getV q = s.getV q := rfl
@[simp] theorem consumeDraw_keyDown (s : State) (k : Reg) : s.consumeDraw.keyDown k = s.keyDown k := rfl
@[simp] theorem consumeDraw_base (s : State) : s.consumeDraw.base = s.base := rfl

/-! ### raiseFatal -/

@[simp] theorem raiseFatal_mem (f : Fatal) (s : State) : (raiseFatal f s).mem = s.mem := rfl
@[simp] theorem raiseFatal_V (f : Fatal) (s : State) : (raiseFatal f s).V = s.V := rfl
@[simp] theorem raiseFatal_I (f : Fatal) (s : State) : (raiseFatal f s).I = s.I := rfl
@[simp] theorem raiseFatal_pc (f : Fatal) (s : State) : (raiseFatal f s).pc = s.pc := rfl
@[simp] theorem raiseFatal_sp (f : Fatal) (s : State) : (raiseFatal f s).sp = s.sp := rfl
@[simp] theorem raiseFatal_stack (f : Fatal) (s : State) : (raiseFatal f s).stack = s.stack := rfl
@[simp] theorem raiseFatal_DT (f : Fatal) (s : State) : (raiseFatal f s).DT = s.DT := rfl
@[simp] theorem raiseFatal_ST (f : Fatal) (s : State) : (raiseFatal f s).ST = s.ST := rfl
@[simp] theorem raiseFatal_key (f : Fatal) (s : State) : (raiseFatal f s).key = s.key := rfl
@[simp] theorem raiseFatal_fb (f : Fatal) (s : State) : (raiseFatal f s).fb = s.fb := rfl
@[simp] theorem raiseFatal_drawPending (f : Fatal) (s : State) : (raiseFatal f s).drawPending = s.drawPending := rfl
@[simp] theorem raiseFatal_terminate (f : Fatal) (s : State) : (raiseFatal f s).terminate = true := rfl
@[simp] theorem raiseFatal_tone (f : Fatal) (s : State) : (raiseFatal f s).tone = s.tone := rfl
@[simp] theorem raiseFatal_diag (f : Fatal) (s : State) : (raiseFatal f s).diag = some f := rfl
@[simp] theorem raiseFatal_draws (f : Fatal) (s : State) : (raiseFatal f s).draws = s.draws := rfl
@[simp] theorem raiseFatal_getV (f : Fatal) (s : State) (q : Reg) : (raiseFatal f s).getV q = s.getV q := rfl
@[simp] theorem raiseFatal_keyDown (f : Fatal) (s : State) (k : Reg) : (raiseFatal f s).keyDown k = s.keyDown k := rfl
@[simp] theorem raiseFatal_base (f : Fatal) (s : State) : (raiseFatal f s).base = s.base := rfl

/-! ### clearOutputs -/

@[simp] theorem clearOutputs_mem (s : State) : (clearOutputs s).mem = s.mem := rfl
@[simp] theorem clearOutputs_V (s : State) : (clearOutputs s).V = s.V := rfl
@[simp] theorem clearOutputs_I (s : State) : (clearOutputs s).I = s.I := rfl
@[simp] theorem clearOutputs_pc (s : State) : (clearOutputs s).pc = s.pc := rfl
@[simp] theorem clearOutputs_sp (s : State) : (clearOutputs s).sp = s.sp := rfl
@[simp] theorem clearOutputs_stack (s : State) : (clearOutputs s).stack = s.stack := rfl
@[simp] theorem clearOutputs_DT (s : State) : (clearOutputs s).DT = s.DT := rfl
@[simp] theorem clearOutputs_ST (s : State) : (clearOutputs s).ST = s.ST := rfl
@[simp] theorem clearOutputs_key (s : State) : (clearOutputs s).key = s.key := rfl
@[simp] theorem clearOutputs_fb (s : State) : (clearOutputs s).fb = s.fb := rfl
@[simp] theorem clearOutputs_drawPending (s : State) : (clearOutputs s).drawPending = s.drawPending := rfl
@[simp] theorem clearOutputs_terminate (s : State) : (clearOutputs s).terminate = s.terminate := rfl
@[simp] theorem clearOutputs_tone (s : State) : (clearOutputs s).tone = false := rfl
@[simp] theorem clearOutputs_diag (s : State) : (clearOutputs s).diag = none := rfl
@[simp] theorem clearOutputs_draws (s : State) : (clearOutputs s).draws = s.draws := rfl
@[simp] theorem clearOutputs_getV (s : State) (q : Reg) : (clearOutputs s).getV q = s.getV q := rfl
@[simp] theorem clearOutputs_keyDown (s : State) (k : Reg) : (clearOutputs s).keyDown k = s.keyDown k := rfl
@[simp] theorem clearOutputs_base (s : State) : (clearOutputs s).base = s.base := rfl

/-! ### timerTick -/

@[simp] theorem timerTick_mem (s : State) : (timerTick s).mem = s.mem := rfl
@[simp] theorem timerTick_V (s : State) : (timerTick s).V = s.V := rfl
@[simp] theorem timerTick_I (s : State) : (timerTick s).I = s.I := rfl
@[simp] theorem timerTick_pc (s : State) : (timerTick s).pc = s.pc := rfl
@[simp] theorem timerTick_sp (s : State) : (timerTick s).sp = s.sp := rfl
@[simp] theorem timerTick_stack (s : State) : (timerTick s).stack = s.stack := rfl
@[simp] theorem timerTick_DT (s : State) : (timerTick s).DT = tickDown s.DT := rfl
@[simp] theorem timerTick_ST (s : State) : (timerTick s).ST = tickDown s.ST := rfl
@[simp] theorem timerTick_key (s : State) : (timerTick s).key = s.key := rfl
@[simp] theorem timerTick_fb (s : State) : (timerTick s).fb = s.fb := rfl
@[simp] theorem timerTick_drawPending (s : State) : (timerTick s).drawPending = s.drawPending := rfl
@[simp] theorem timerTick_terminate (s : State) : (timerTick s).terminate = s.terminate := rfl
@[simp] theorem timerTick_tone (s : State) : (timerTick s).tone = (s.ST != 0 || s.tone) := rfl
@[simp] theorem timerTick_diag (s : State) : (timerTick s).diag = s.diag := rfl
@[simp] theorem timerTick_draws (s : State) : (timerTick s).draws = s.draws := rfl
@[simp] theorem timerTick_getV (s : State) (q : Reg) : (timerTick s).getV q = s.getV q := rfl
@[simp] theorem timerTick_keyDown (s : State) (k : Reg) : (timerTick s).keyDown k = s.keyDown k := rfl
@[simp] theorem timerTick_base (s : State) : (timerTick s).base = s.base := rfl

/-! ### storeBytes -/

@[simp] theorem storeBytes_mem (a : Nat) (bs : List Byte) (s : State) : (storeBytes a bs s).mem = s.mem.writeList a bs := rfl
@[simp] theorem storeBytes_V (a : Nat) (bs : List Byte) (s : State) : (storeBytes a bs s).V = s.V := rfl
@[simp] theorem storeBytes_I (a : Nat) (bs : List Byte) (s : State) : (storeBytes a bs s).I = s.I := rfl
@[simp] theorem storeBytes_pc (a : Nat) (bs : List Byte) (s : State) : (storeBytes a bs s).pc = s.pc := rfl
@[simp] theorem storeBytes_sp (a : Nat) (bs : List Byte) (s : State) : (storeBytes a bs s).sp = s.sp := rfl
@[simp] theorem storeBytes_stack (a : Nat) (bs : List Byte) (s : State) : (storeBytes a bs s).stack = s.stack := rfl
@[simp] theorem storeBytes_DT (a : Nat) (bs : List Byte) (s : State) : (storeBytes a bs s).DT = s.DT := rfl
@[simp] theorem storeBytes_ST (a : Nat) (bs : List Byte) (s : State) : (storeBytes a bs s).ST = s.ST := rfl
@[simp] theorem storeBytes_key (a : Nat) (bs : List Byte) (s : State) : (storeBytes a bs s).key = s.key := rfl
@[simp] theorem storeBytes_fb (a : Nat) (bs : List Byte) (s : State) : (storeBytes a bs s).fb = s.fb := rfl
@[simp] theorem storeBytes_drawPending (a : Nat) (bs : List Byte) (s : State) : (storeBytes a bs s).drawPending = s.drawPending := rfl
@[simp] theorem storeBytes_terminate (a : Nat) (bs : List Byte) (s : State) : (storeBytes a bs s).terminate = s.terminate := rfl
@[simp] theorem storeBytes_tone (a : Nat) (bs : List Byte) (s : State) : (storeBytes a bs s).tone = s.tone := rfl
@[simp] theorem storeBytes_diag (a : Nat) (bs : List Byte) (s : State) : (storeBytes a bs s).diag = s.diag := rfl
@[simp] theorem storeBytes_draws (a : Nat) (bs : List Byte) (s : State) : (storeBytes a bs s).draws = s.draws := rfl
@[simp] theorem storeBytes_getV (a : Nat) (bs : List Byte) (s : State) (q : Reg) : (storeBytes a bs s).getV q = s.getV q := rfl
@[simp] theorem storeBytes_keyDown (a : Nat) (bs : List Byte) (s : State) (k : Reg) : (storeBytes a bs s).keyDown k = s.keyDown k := rfl
@[simp] theorem storeBytes_base (a : Nat) (bs : List Byte) (s : State) : (storeBytes a bs s).base = s.base := rfl

/-! ### loadBlock -/

@[simp] theorem loadBlock_mem (s : State) (x : Reg) (a : Nat) : (loadBlock s x a).mem = s.mem := by unfold loadBlock; rfl
@[simp] theorem loadBlock_V (s : State) (x : Reg) (a : Nat) : (loadBlock s x a).V = loadedRegs s x a := by unfold loadBlock; rfl
@[simp] theorem loadBlock_I (s : State) (x : Reg) (a : Nat) : (loadBlock s x a).I = s.I := by unfold loadBlock; rfl
@[simp] theorem loadBlock_pc (s : State) (x : Reg) (a : Nat) : (loadBlock s x a).pc = s.pc := by unfold loadBlock; rfl
@[simp] theorem loadBlock_sp (s : State) (x : Reg) (a : Nat) : (loadBlock s x a).sp = s.sp := by unfold loadBlock; rfl
@[simp] theorem loadBlock_stack (s : State) (x : Reg) (a : Nat) : (loadBlock s x a).stack = s.stack := by unfold loadBlock; rfl
@[simp] theorem loadBlock_DT (s : State) (x : Reg) (a : Nat) : (loadBlock s x a).DT = s.DT := by unfold loadBlock; rfl
@[simp] theorem loadBlock_ST (s : State) (x : Reg) (a : Nat) : (loadBlock s x a).ST = s.ST := by unfold loadBlock; rfl
@[simp] theorem loadBlock_key (s : State) (x : Reg) (a : Nat) : (loadBlock s x a).key = s.key := by unfold loadBlock; rfl
@[simp] theorem loadBlock_fb (s : State) (x : Reg) (a : Nat) : (loadBlock s x a).fb = s.fb := by unfold loadBlock; rfl
@[simp] theorem loadBlock_drawPending (s : State) (x : Reg) (a : Nat) : (loadBlock s x a).drawPending = s.drawPending := by unfold loadBlock; rfl
@[simp] theorem loadBlock_terminate (s : State) (x : Reg) (a : Nat) : (loadBlock s x a).terminate = s.terminate := by unfold loadBlock; rfl
@[simp] theorem loadBlock_tone (s : State) (x : Reg) (a : Nat) : (loadBlock s x a).tone = s.tone := by unfold loadBlock; rfl
@[simp] theorem loadBlock_diag (s : State) (x : Reg) (a : Nat) : (loadBlock s x a).diag = s.diag := by unfold loadBlock; rfl
@[simp] theorem loadBlock_draws (s : State) (x : Reg) (a : Nat) : (loadBlock s x a).draws = s.draws := by unfold loadBlock; rfl
@[simp] theorem loadBlock_keyDown (s : State) (x : Reg) (a : Nat) (k : Reg) : (loadBlock s x a).keyDown k = s.keyDown k := by
  simp only [State.keyDown, loadBlock_key]
@[simp] theorem loadBlock_base (s : State) (x : Reg) (a : Nat) : (loadBlock s x a).base = s.base := by simp only [State.base, loadBlock_I]

/-! ### Reading a register after a write -/

theorem getV_setV (s : State) (r q : Reg) (v : Byte) : (s.setV r v).getV q = if q = r then v else s.getV q := by
  simp only [State.getV, setV_V, Vector.getElem_set, Fin.ext_iff, eq_comm]

@[simp] theorem getV_setV_same (s : State) (r : Reg) (v : Byte) : (s.setV r v).getV r = v := by simp [getV_setV]

theorem getV_setV_other (s : State) (r q : Reg) (v : Byte) (h : q ≠ r) : (s.setV r v).getV q = s.getV q := by
  simp [getV_setV, h]

@[simp] theorem getV_loadBlock (s : State) (x : Reg) (a : Nat) (q : Reg) :
    (loadBlock s x a).getV q = if q ≤ x then s.mem.read (a + q.val) else s.getV q := by
  simp [State.getV, loadedRegs]

end Sys2Proof.Machine
end

