-- ==== Sys2Proof/Laws/Ops.lean ====
section
/-! SUPPORT. For each shared operation of Machine/, one lemma that says everything it can do; proofs cite these instead of
unfolding the operation. -/

namespace Sys2Proof.Machine

open Sys2Proof

/-! ### The bounds check -/

/-- The bounds check answers one of two next states (20_memory.md R36, R42). -/
theorem withAddrs_cases {op : Word} {base count : Nat} {body : State → State} {s t : State}
    (h : withAddrs op base count body s = .next t) :
    (0 < count ∧ base + count > 4096 ∧ t = raiseFatal (.memoryBounds op (max base 4096)) s) ∨
    ((count = 0 ∨ base + count ≤ 4096) ∧ t = body s) := by
  unfold withAddrs at h
  split at h
  · rename_i hb
    exact .inl ⟨hb.1, by omega, (Host.Outcome.next.inj h).symm⟩
  · rename_i hb
    exact .inr ⟨by omega, (Host.Outcome.next.inj h).symm⟩

theorem withAddrs_ok {op : Word} {base count : Nat} {body : State → State} {s : State}
    (h : count = 0 ∨ base + count ≤ 4096) : withAddrs op base count body s = .next (body s) := by
  rw [withAddrs, if_neg (by omega)]

theorem withAddrs_bad {op : Word} {base count : Nat} {body : State → State} {s : State}
    (h0 : 0 < count) (h : base + count > 4096) :
    withAddrs op base count body s = .next (raiseFatal (.memoryBounds op (max base 4096)) s) := by
  rw [withAddrs, if_pos ⟨h0, by omega⟩]
  rfl

/-! ### The block V0..Vx -/

@[simp] theorem regBlock_length (s : State) (x : Reg) : (regBlock s x).length = x.val + 1 := by simp [regBlock]

theorem regBlock_getElem (s : State) (x r : Reg) (h : r.val < (regBlock s x).length) :
    (regBlock s x)[r.val] = s.getV r := by
  simp [regBlock, State.getV]

@[simp] theorem bcdDigits_length (v : Byte) : (bcdDigits v).length = 3 := rfl

/-! ### Skips and the key latch -/

theorem skipIf_cases {c : Bool} {s t : State} (h : skipIf c s = .next t) :
    (c = true ∧ t = s.advancePc) ∨ (c = false ∧ t = s) := by
  cases c
  · exact .inr ⟨rfl, (Host.Outcome.next.inj h).symm⟩
  · exact .inl ⟨rfl, (Host.Outcome.next.inj h).symm⟩

theorem withKey_cases {op : Word} {x : Reg} {s t : State} {k : Bool → Res} (h : withKey op x s k = .next t) :
    (∃ hx : (s.getV x).toNat < 16, k (s.keyDown ⟨(s.getV x).toNat, hx⟩) = .next t) ∨
    ((s.getV x).toNat > 15 ∧ t = raiseFatal (.keyIndex op (s.getV x)) s) := by
  unfold withKey at h
  split at h
  · rename_i hx
    exact .inl ⟨hx, h⟩
  · exact .inr ⟨by omega, (Host.Outcome.next.inj h).symm⟩

theorem lowestKey_eq_some {s : State} {k : Reg} :
    s.lowestKey = some k ↔ s.keyDown k = true ∧ ∀ j : Reg, j < k → s.keyDown j = false := by
  simp only [State.lowestKey, List.find?_eq_some_iff_getElem, Bool.not_eq_true']
  constructor
  · rintro ⟨hk, i, hi, rfl, hlt⟩
    refine ⟨hk, fun j hj => ?_⟩
    have := hlt j.val (by simpa [Fin.lt_def] using hj)
    simpa using this
  · rintro ⟨hk, hlt⟩
    refine ⟨hk, k.val, by simp, by simp, fun j hj => ?_⟩
    have := hlt ⟨j, by omega⟩ hj
    simpa using this

theorem lowestKey_eq_none {s : State} : s.lowestKey = none ↔ ∀ k : Reg, s.keyDown k = false := by
  simp [State.lowestKey, List.find?_eq_none]

/-! ### The return stack -/

theorem pushPc_of_lt {s : State} (h : s.sp.val < 16) :
    pushPc s = some { s with stack := s.stack.set s.sp.val s.pc, sp := ⟨s.sp.val + 1, by omega⟩ } := by
  rw [pushPc, dif_pos h]

theorem pushPc_full {s : State} (h : s.sp.val = 16) : pushPc s = none := by
  rw [pushPc, dif_neg (by omega)]

theorem pushPc_eq_some {s t : State} (h : pushPc s = some t) :
    ∃ hs : s.sp.val < 16,
      t = { s with stack := s.stack.set s.sp.val s.pc, sp := ⟨s.sp.val + 1, by omega⟩ } := by
  unfold pushPc at h
  split at h
  · rename_i hs
    exact ⟨hs, (Option.some.inj h).symm⟩
  · nomatch h

theorem pushPc_eq_none {s : State} (h : pushPc s = none) : s.sp.val = 16 := by
  by_contra hs
  rw [pushPc_of_lt (by omega)] at h
  nomatch h

theorem popPc_of_pos {s : State} {k : Nat} (hk : k < 16) (h : s.sp.val = k + 1) :
    popPc s = some { s with sp := ⟨k, by omega⟩, pc := s.stack[k] } := by
  rw [popPc, dif_pos (by omega)]
  simp [h]

theorem popPc_empty {s : State} (h : s.sp.val = 0) : popPc s = none := by
  rw [popPc, dif_neg (by omega)]

theorem popPc_eq_some {s t : State} (h : popPc s = some t) :
    ∃ (k : Nat) (hk : k < 16), s.sp.val = k + 1 ∧ t = { s with sp := ⟨k, by omega⟩, pc := s.stack[k] } := by
  have hp : 0 < s.sp.val := by
    by_contra hs
    rw [popPc_empty (by omega)] at h
    nomatch h
  refine ⟨s.sp.val - 1, by omega, by omega, ?_⟩
  rw [popPc_of_pos (k := s.sp.val - 1) (by omega) (by omega)] at h
  exact (Option.some.inj h).symm

theorem popPc_eq_none {s : State} (h : popPc s = none) : s.sp.val = 0 := by
  by_contra hs
  rw [popPc_of_pos (k := s.sp.val - 1) (by omega) (by omega)] at h
  nomatch h

/-! ### Flags -/

@[simp] theorem flagByte_toNat (b : Bool) : (flagByte b).toNat = if b then 1 else 0 := by
  cases b <;> rfl

/-- The carry flag as a value (42_alu.md R89). -/
theorem flagByte_carry (a b : Byte) : flagByte (carry a b) = if a.toNat + b.toNat > 255 then 1 else 0 := by
  by_cases h : a.toNat + b.toNat > 255 <;> simp [flagByte, carry, h]

/-- The no-borrow flag as a value (42_alu.md R90, R92). -/
theorem flagByte_noBorrow (a b : Byte) : flagByte (noBorrow a b) = if a.toNat ≥ b.toNat then 1 else 0 := by
  by_cases h : a.toNat ≥ b.toNat <;> simp [flagByte, noBorrow, h]

/-- The bit a right shift drops, as a value: the remainder by 2 (42_alu.md R91). -/
theorem flagByte_shiftedOutRight (v : Byte) : flagByte (shiftedOutRight v) = BitVec.ofNat 8 (v.toNat % 2) := by
  have h : shiftedOutRight v = decide (v.toNat % 2 = 1) := by
    rw [shiftedOutRight, BitVec.getLsbD, Nat.testBit_eq_decide_div_mod_eq]
    simp
  rw [h]
  rcases Nat.mod_two_eq_zero_or_one v.toNat with h | h <;> simp [h, flagByte]

/-- The bit a left shift drops, as a value: the quotient by 128 (42_alu.md R93). -/
theorem flagByte_shiftedOutLeft (v : Byte) : flagByte (shiftedOutLeft v) = BitVec.ofNat 8 (v.toNat / 128) := by
  have hv := v.isLt
  have h : shiftedOutLeft v = decide (v.toNat / 128 = 1) := by
    rw [shiftedOutLeft, BitVec.getLsbD, Nat.testBit_eq_decide_div_mod_eq]
    congr 1
    simp; omega
  rw [h]
  rcases (show v.toNat / 128 = 0 ∨ v.toNat / 128 = 1 by omega) with h | h <;> simp [h, flagByte]

/-- Everything a flag-producing form does to the register file (00_scope.md R10). -/
theorem flagThenResult_eq (flag : Byte → Byte → Bool) (result : Byte → Byte → Byte) (x y : Reg) (s : State) :
    flagThenResult flag result x y s =
      (s.setV vf (flagByte (flag (s.getV x) (s.getV y)))).setV x
        (result ((s.setV vf (flagByte (flag (s.getV x) (s.getV y)))).getV x)
          ((s.setV vf (flagByte (flag (s.getV x) (s.getV y)))).getV y)) := rfl

/-! ### Timers -/

theorem tickDown_toNat (t : Byte) : (tickDown t).toNat = t.toNat - 1 := by
  unfold tickDown
  split
  · rw [BitVec.toNat_sub]
    have := t.isLt
    simp; omega
  · omega

/-! ### The framebuffer -/

theorem fbIndex_lt {px py : Nat} (hx : px < 64) (hy : py < 32) : fbIndex px py < 2048 := by
  simp only [fbIndex, Config.fbWidth]; omega

theorem fbIndex_inj {px py qx qy : Nat} (hx : px < 64) (hq : qx < 64) (h : fbIndex px py = fbIndex qx qy) :
    px = qx ∧ py = qy := by
  simp only [fbIndex, Config.fbWidth] at h; omega

/-- A toggle changes the one pixel it names (44_display.md R103, step 6). -/
theorem pixelAt_togglePixel (fb : Vector Bool 2048) {px py qx qy : Nat} (hx : px < 64) (hy : py < 32) (hq : qx < 64) :
    pixelAt (togglePixel fb px py) qx qy = if qx = px ∧ qy = py then !pixelAt fb qx qy else pixelAt fb qx qy := by
  unfold togglePixel
  by_cases h : qx = px ∧ qy = py
  · obtain ⟨rfl, rfl⟩ := h
    simp [pixelAt, fbIndex_lt hx hy]
  · have hne : fbIndex px py ≠ fbIndex qx qy := fun e => h (by have := fbIndex_inj hx hq e; omega)
    simp [pixelAt, h, hne, Vector.getElem?_setIfInBounds_ne]

end Sys2Proof.Machine
end

