-- ==== Sys2Proof/Laws/Cycle.lean ====
section
/-! SUPPORT. What one cycle can do: the three cases of a step, in both directions (40_cycle.md R64). -/

namespace Sys2Proof.Machine

open Sys2Proof

theorem fetchWord_of_lt {s : State} (h : s.pc.toNat < 4095) :
    fetchWord s = some (wordOfBytes (s.mem.read s.pc.toNat) (s.mem.read (s.pc.toNat + 1))) := by
  rw [fetchWord, if_neg (by omega)]

theorem fetchWord_of_ge {s : State} (h : s.pc.toNat ≥ 4095) : fetchWord s = none := by
  rw [fetchWord, if_pos (by omega)]

theorem fetchWord_eq_none {s : State} : fetchWord s = none ↔ s.pc.toNat ≥ 4095 := by
  by_cases h : s.pc.toNat < 4095
  · simp [fetchWord_of_lt h]; omega
  · simp [fetchWord_of_ge (Nat.not_lt.1 h)]; omega

@[simp] theorem fetchWord_clearOutputs (s : State) : fetchWord (clearOutputs s) = fetchWord s := rfl

theorem nextInstr_eq_some {s : State} {i : Instr} :
    nextInstr s = some i ↔ ∃ op, fetchWord s = some op ∧ decode op = .instr i := by
  unfold nextInstr
  cases hf : fetchWord s with
  | none => simp
  | some op => cases hd : decode op <;> simp [hd]

theorem step_fetchFault {s : State} (h : s.pc.toNat ≥ 4095) :
    step s = .next (timerTick (raiseFatal (.fetchBounds s.pc) (clearOutputs s))) := by
  simp [step, cycleWith, fetchWord_of_ge h, thenTick]

theorem step_unknown {s : State} {op w : Word} (hf : fetchWord s = some op) (hd : decode op = .unknown w) :
    step s = .next (timerTick (raiseFatal (.unknownOpcode w) (clearOutputs s).advancePc)) := by
  simp [step, cycleWith, hf, hd, thenTick]

theorem step_instr {s : State} {i : Instr} (h : nextInstr s = some i) :
    step s = thenTick (exec i (clearOutputs s).advancePc) := by
  obtain ⟨op, hf, hd⟩ := nextInstr_eq_some.1 h
  simp [step, cycleWith, hf, hd]

/-- The three things a step can be. -/
theorem step_cases {s t : State} (h : step s = .next t) :
    (s.pc.toNat ≥ 4095 ∧ t = timerTick (raiseFatal (.fetchBounds s.pc) (clearOutputs s))) ∨
    (∃ op w, fetchWord s = some op ∧ decode op = .unknown w ∧
      t = timerTick (raiseFatal (.unknownOpcode w) (clearOutputs s).advancePc)) ∨
    (∃ i u, nextInstr s = some i ∧ exec i (clearOutputs s).advancePc = .next u ∧ t = timerTick u) := by
  cases hf : fetchWord s with
  | none =>
    have hp := fetchWord_eq_none.1 hf
    rw [step_fetchFault hp] at h
    exact .inl ⟨hp, (Host.Outcome.next.inj h).symm⟩
  | some op =>
    cases hd : decode op with
    | unknown w =>
      rw [step_unknown hf hd] at h
      exact .inr (.inl ⟨op, w, rfl, hd, (Host.Outcome.next.inj h).symm⟩)
    | instr i =>
      have hn := nextInstr_eq_some.2 ⟨op, hf, hd⟩
      rw [step_instr hn] at h
      cases hx : exec i (clearOutputs s).advancePc with
      | next u =>
        rw [hx] at h
        exact .inr (.inr ⟨i, u, hn, hx, (Host.Outcome.next.inj h).symm⟩)
      | fault r => exact nomatch r
      | refused r => rw [hx] at h; nomatch h

end Sys2Proof.Machine
end

