-- ==== Sys2Proof/Laws/Decode.lean ====
section
/-! SUPPORT. The fields of a packed word, and the bytes of a word. -/

namespace Sys2Proof

@[simp] theorem nibble_toFin (r : Fin 16) : (nibble r).toFin = r := rfl

@[simp] theorem nibble_toNat (r : Fin 16) : (nibble r).toNat = r.val := rfl

theorem toNat_append (a : BitVec n) (b : BitVec m) : (a ++ b).toNat = a.toNat * 2 ^ m + b.toNat := by
  rw [BitVec.toNat_append, ← Nat.shiftLeft_add_eq_or_of_lt b.isLt, Nat.shiftLeft_eq]

/-! ### Each field of a word, as a number (30_encoding.md R51) -/

theorem fieldG_eq (op : Word) : fieldG op = op.toNat / 4096 := by
  have := op.isLt
  simp [fieldG, BitVec.extractLsb'_toNat, Nat.shiftRight_eq_div_pow]; omega

theorem fieldX_val (op : Word) : (fieldX op).val = op.toNat / 256 % 16 := by
  simp [fieldX, Nat.shiftRight_eq_div_pow]

theorem fieldY_val (op : Word) : (fieldY op).val = op.toNat / 16 % 16 := by
  simp [fieldY, Nat.shiftRight_eq_div_pow]

theorem fieldN_val (op : Word) : (fieldN op).val = op.toNat % 16 := by
  simp [fieldN]

theorem fieldKK_toNat (op : Word) : (fieldKK op).toNat = op.toNat % 256 := by
  simp [fieldKK]

theorem fieldNNN_toNat (op : Word) : (fieldNNN op).toNat = op.toNat % 4096 := by
  simp [fieldNNN]

/-! ### A packed word as a number, and its fields (30_encoding.md R52) -/

theorem packNNN_toNat (g : BitVec 4) (nnn : Addr12) : (packNNN g nnn).toNat = g.toNat * 4096 + nnn.toNat := by
  rw [show packNNN g nnn = (g ++ nnn : BitVec (4+12)) from rfl, toNat_append]
  norm_num

theorem packXKK_toNat (g : BitVec 4) (x : Reg) (kk : Byte) :
    (packXKK g x kk).toNat = g.toNat * 4096 + x.val * 256 + kk.toNat := by
  rw [show packXKK g x kk = (g ++ nibble x ++ kk : BitVec (4 + 4 + 8)) from rfl, toNat_append, toNat_append,
    nibble_toNat]
  ring

theorem packXYN_toNat (g : BitVec 4) (x y : Reg) (n : Fin 16) :
    (packXYN g x y n).toNat = g.toNat * 4096 + x.val * 256 + y.val * 16 + n.val := by
  rw [show packXYN g x y n = (g ++ nibble x ++ nibble y ++ nibble n : BitVec (4 + 4 + 4 + 4)) from rfl,
    toNat_append, toNat_append, toNat_append, nibble_toNat, nibble_toNat, nibble_toNat]
  ring

section fields

variable (g : BitVec 4) (x y : Reg) (n : Fin 16) (kk : Byte) (nnn : Addr12)

@[simp] theorem fieldG_packNNN : fieldG (packNNN g nnn) = g.toNat := by
  have := nnn.isLt
  rw [fieldG_eq, packNNN_toNat]; omega

@[simp] theorem fieldNNN_packNNN : fieldNNN (packNNN g nnn) = nnn := by
  have := nnn.isLt
  apply BitVec.eq_of_toNat_eq
  rw [fieldNNN_toNat, packNNN_toNat]; omega

@[simp] theorem fieldG_packXKK : fieldG (packXKK g x kk) = g.toNat := by
  have := kk.isLt
  rw [fieldG_eq, packXKK_toNat]; omega

@[simp] theorem fieldX_packXKK : fieldX (packXKK g x kk) = x := by
  have := kk.isLt
  apply Fin.ext
  rw [fieldX_val, packXKK_toNat]; omega

@[simp] theorem fieldKK_packXKK : fieldKK (packXKK g x kk) = kk := by
  have := kk.isLt
  apply BitVec.eq_of_toNat_eq
  rw [fieldKK_toNat, packXKK_toNat]; omega

@[simp] theorem fieldG_packXYN : fieldG (packXYN g x y n) = g.toNat := by
  rw [fieldG_eq, packXYN_toNat]; omega

@[simp] theorem fieldX_packXYN : fieldX (packXYN g x y n) = x := by
  apply Fin.ext
  rw [fieldX_val, packXYN_toNat]; omega

@[simp] theorem fieldY_packXYN : fieldY (packXYN g x y n) = y := by
  apply Fin.ext
  rw [fieldY_val, packXYN_toNat]; omega

@[simp] theorem fieldN_packXYN : fieldN (packXYN g x y n) = n := by
  apply Fin.ext
  rw [fieldN_val, packXYN_toNat]; omega

end fields

/-! ### The bytes of a word (20_memory.md R40) -/

/-- The big-endian word of two bytes is their concatenation. -/
theorem wordOfBytes_eq_append (hi lo : Byte) : wordOfBytes hi lo = hi ++ lo := by
  apply BitVec.eq_of_toNat_eq
  have h1 := hi.isLt
  have h2 := lo.isLt
  have h3 : (hi ++ lo).toNat = hi.toNat * 2 ^ 8 + lo.toNat := toNat_append hi lo
  have h4 : (wordOfBytes hi lo).toNat = hi.toNat <<< 8 ||| lo.toNat := by
    simp [wordOfBytes, Nat.shiftLeft_eq]
    rw [Nat.mod_eq_of_lt (by omega), Nat.mod_eq_of_lt (by omega)]
  have h5 : hi.toNat <<< 8 ||| lo.toNat = hi.toNat * 2 ^ 8 + lo.toNat := by
    rw [← Nat.shiftLeft_add_eq_or_of_lt h2, Nat.shiftLeft_eq]
  rw [h4, h5, h3]

theorem wordOfBytes_toNat (hi lo : Byte) : (wordOfBytes hi lo).toNat = hi.toNat * 256 + lo.toNat := by
  rw [wordOfBytes_eq_append]
  exact toNat_append hi lo

/-- The two bytes of a word give it back. -/
@[simp] theorem wordOfBytes_high_low (op : Word) : wordOfBytes (highByte op) (lowByte op) = op := by
  apply BitVec.eq_of_toNat_eq
  have := op.isLt
  rw [wordOfBytes_toNat]
  simp [highByte, lowByte, Nat.shiftRight_eq_div_pow]; omega

theorem decodeBytes_encodeBytes (i : Instr) (rest : List Byte) :
    decodeBytes (encodeBytes i ++ rest) = some (decode (encode i), rest) := by
  simp [encodeBytes, decodeBytes]

end Sys2Proof
end

