-- ==== Sys2Proof/Laws/Display.lean ====
section
/-! SUPPORT. What the two loops of DRW do to one pixel and to the collision flag (44_display.md R103). -/

namespace Sys2Proof.Machine

open Sys2Proof

/-- The columns j, .., j+m-1 of one sprite row cover pixel px of that row with a 1 bit. -/
def columnCovers (xc : Nat) (row : Byte) (j m px : Nat) : Prop :=
  xc + j ≤ px ∧ px < xc + j + m ∧ row.getLsbD (7 - (px - xc)) = true

theorem columnCovers_zero (xc : Nat) (row : Byte) (j px : Nat) : ¬ columnCovers xc row j 0 px := by
  simp only [columnCovers]; omega

theorem columnCovers_succ (xc : Nat) (row : Byte) (j m px : Nat) :
    columnCovers xc row j (m + 1) px ↔
      (px = xc + j ∧ row.getLsbD (7 - j) = true) ∨ columnCovers xc row (j + 1) m px := by
  simp only [columnCovers]
  constructor
  · rintro ⟨h1, h2, h3⟩
    by_cases hp : px = xc + j
    · subst hp
      rw [Nat.add_sub_cancel_left] at h3
      exact .inl ⟨rfl, h3⟩
    · exact .inr ⟨by omega, by omega, h3⟩
  · rintro (⟨rfl, h3⟩ | ⟨h1, h2, h3⟩)
    · exact ⟨by omega, by omega, by rwa [Nat.add_sub_cancel_left]⟩
    · exact ⟨by omega, by omega, h3⟩

/-- The column loop toggles exactly the visible pixels that it covers. -/
theorem pixelAt_drawColumns {xc py : Nat} (row : Byte) (hpy : py < 32) (m j : Nat) (acc : Vector Bool 2048 × Bool)
    {px qy : Nat} (hpx : px < 64) :
    (qy = py ∧ columnCovers xc row j m px →
      pixelAt (drawColumns xc py row (List.range' j m) acc).1 px qy = !pixelAt acc.1 px qy) ∧
    (¬ (qy = py ∧ columnCovers xc row j m px) →
      pixelAt (drawColumns xc py row (List.range' j m) acc).1 px qy = pixelAt acc.1 px qy) := by
  induction m generalizing j acc with
  | zero => exact ⟨fun h => absurd h.2 (columnCovers_zero _ _ _ _), fun _ => rfl⟩
  | succ m ih =>
    rw [List.range'_succ, drawColumns, columnCovers_succ]
    by_cases hb : row.getLsbD (7 - j) = true
    · rw [if_neg (by simp [hb])]
      by_cases hx : xc + j ≥ 64
      · rw [if_pos hx]
        refine ⟨fun h => ?_, fun _ => rfl⟩
        rcases h.2 with h | h
        · omega
        · have := h.1; omega
      · rw [if_neg hx]
        have ih := ih (j + 1) (togglePixel acc.1 (xc + j) py, acc.2 || pixelAt acc.1 (xc + j) py)
        have ht := pixelAt_togglePixel acc.1 (px := xc + j) (py := py) (qx := px) (qy := qy) (by omega) hpy hpx
        by_cases hp : px = xc + j ∧ qy = py
        · rw [if_pos hp] at ht
          have hn : ¬ (qy = py ∧ columnCovers xc row (j + 1) m px) := fun h => by have := h.2.1; omega
          exact ⟨fun _ => by rw [ih.2 hn, ht], fun h => absurd ⟨hp.2, .inl ⟨hp.1, hb⟩⟩ h⟩
        · rw [if_neg hp] at ht
          refine ⟨fun h => ?_, fun h => ?_⟩
          · rw [ih.1 ⟨h.1, h.2.resolve_left fun e => hp ⟨e.1, h.1⟩⟩, ht]
          · rw [ih.2 fun e => h ⟨e.1, .inr e.2⟩, ht]
    · rw [if_pos (by simpa using hb)]
      have ih := ih (j + 1) acc
      refine ⟨fun h => ih.1 ⟨h.1, h.2.resolve_left fun e => hb e.2⟩, fun h => ih.2 fun e => h ⟨e.1, .inr e.2⟩⟩

/-- The column loop reports a collision exactly when a visible pixel it covers was set. -/
theorem collision_drawColumns {xc py : Nat} (row : Byte) (hpy : py < 32) (m j : Nat) (acc : Vector Bool 2048 × Bool) :
    (drawColumns xc py row (List.range' j m) acc).2 = true ↔
      acc.2 = true ∨ ∃ px, px < 64 ∧ columnCovers xc row j m px ∧ pixelAt acc.1 px py = true := by
  induction m generalizing j acc with
  | zero =>
    refine ⟨.inl, fun h => h.resolve_right ?_⟩
    rintro ⟨px, -, h, -⟩
    exact columnCovers_zero _ _ _ _ h
  | succ m ih =>
    rw [List.range'_succ, drawColumns]
    simp only [columnCovers_succ]
    by_cases hb : row.getLsbD (7 - j) = true
    · rw [if_neg (by simp [hb])]
      by_cases hx : xc + j ≥ 64
      · rw [if_pos hx]
        refine ⟨.inl, fun h => h.resolve_right ?_⟩
        rintro ⟨px, hpx, h, -⟩
        rcases h with h | h
        · omega
        · have := h.1; omega
      · rw [if_neg hx, ih]
        have ht (px : Nat) (hpx : px < 64) (hc : columnCovers xc row (j + 1) m px) :
            pixelAt (togglePixel acc.1 (xc + j) py) px py = pixelAt acc.1 px py := by
          rw [pixelAt_togglePixel _ (by omega) hpy hpx, if_neg]
          intro e
          have := hc.1; omega
        constructor
        · rintro (h | ⟨px, hpx, hc, hs⟩)
          · rcases Bool.or_eq_true_iff.1 h with h | h
            · exact .inl h
            · exact .inr ⟨xc + j, by omega, .inl ⟨rfl, hb⟩, h⟩
          · exact .inr ⟨px, hpx, .inr hc, by rwa [ht px hpx hc] at hs⟩
        · rintro (h | ⟨px, hpx, ⟨rfl, -⟩ | hc, hs⟩)
          · exact .inl (by simp [h])
          · exact .inl (by simp [hs])
          · exact .inr ⟨px, hpx, hc, by rwa [ht px hpx hc]⟩
    · rw [if_pos (by simpa using hb), ih]
      simp [hb]

/-- The rows i, .., i+m-1 of the sprite at `base` cover the pixel (px, py) with a 1 bit. -/
def spriteCovers (mem : Memory) (base xc yc i m px py : Nat) : Prop :=
  yc + i ≤ py ∧ py < yc + i + m ∧ columnCovers xc (mem.read (base + (py - yc))) 0 8 px

theorem spriteCovers_succ (mem : Memory) (base xc yc i m px py : Nat) :
    spriteCovers mem base xc yc i (m + 1) px py ↔
      (py = yc + i ∧ columnCovers xc (mem.read (base + i)) 0 8 px) ∨
        spriteCovers mem base xc yc (i + 1) m px py := by
  simp only [spriteCovers]
  constructor
  · rintro ⟨h1, h2, h3⟩
    by_cases hp : py = yc + i
    · subst hp
      rw [Nat.add_sub_cancel_left] at h3
      exact .inl ⟨rfl, h3⟩
    · exact .inr ⟨by omega, by omega, h3⟩
  · rintro (⟨rfl, h3⟩ | ⟨h1, h2, h3⟩)
    · exact ⟨by omega, by omega, by rwa [Nat.add_sub_cancel_left]⟩
    · exact ⟨by omega, by omega, h3⟩

/-- The row loop toggles exactly the visible pixels that the sprite covers. -/
theorem pixelAt_drawRows (mem : Memory) (base xc yc m i : Nat) (acc : Vector Bool 2048 × Bool) {px py : Nat}
    (hpx : px < 64) (hpy : py < 32) :
    (spriteCovers mem base xc yc i m px py →
      pixelAt (drawRows mem base xc yc (List.range' i m) acc).1 px py = !pixelAt acc.1 px py) ∧
    (¬ spriteCovers mem base xc yc i m px py →
      pixelAt (drawRows mem base xc yc (List.range' i m) acc).1 px py = pixelAt acc.1 px py) := by
  induction m generalizing i acc with
  | zero =>
    refine ⟨fun h => ?_, fun _ => rfl⟩
    have h1 := h.1
    have h2 := h.2.1
    omega
  | succ m ih =>
    rw [List.range'_succ, drawRows, spriteCovers_succ]
    by_cases hy : yc + i ≥ 32
    · rw [if_pos hy]
      refine ⟨fun h => ?_, fun _ => rfl⟩
      rcases h with h | h
      · omega
      · have := h.1; omega
    · rw [if_neg hy, List.range_eq_range']
      have ih := ih (i + 1) (drawColumns xc (yc + i) (mem.read (base + i)) (List.range' 0 8) acc)
      have hc := pixelAt_drawColumns (xc := xc) (py := yc + i) (mem.read (base + i)) (by omega) 8 0 acc
        (px := px) (qy := py) hpx
      by_cases hp : py = yc + i
      · have hn : ¬ spriteCovers mem base xc yc (i + 1) m px py := fun h => by have := h.1; omega
        rw [ih.2 hn]
        exact ⟨fun h => hc.1 (h.resolve_right hn), fun h => hc.2 fun e => h (.inl e)⟩
      · have hn : ¬ (py = yc + i ∧ columnCovers xc (mem.read (base + i)) 0 8 px) := fun h => hp h.1
        refine ⟨fun h => ?_, fun h => ?_⟩
        · rw [ih.1 (h.resolve_left hn), hc.2 hn]
        · rw [ih.2 fun e => h (.inr e), hc.2 hn]

/-- The row loop reports a collision exactly when a visible pixel the sprite covers was set. -/
theorem collision_drawRows (mem : Memory) (base xc yc m i : Nat) (acc : Vector Bool 2048 × Bool) :
    (drawRows mem base xc yc (List.range' i m) acc).2 = true ↔
      acc.2 = true ∨ ∃ px py, px < 64 ∧ py < 32 ∧ spriteCovers mem base xc yc i m px py ∧
        pixelAt acc.1 px py = true := by
  induction m generalizing i acc with
  | zero =>
    refine ⟨.inl, fun h => h.resolve_right ?_⟩
    rintro ⟨px, py, -, -, h, -⟩
    have h1 := h.1
    have h2 := h.2.1
    omega
  | succ m ih =>
    rw [List.range'_succ, drawRows]
    simp only [spriteCovers_succ]
    by_cases hy : yc + i ≥ 32
    · rw [if_pos hy]
      refine ⟨.inl, fun h => h.resolve_right ?_⟩
      rintro ⟨px, py, -, hpy, h, -⟩
      rcases h with h | h
      · omega
      · have := h.1; omega
    · rw [if_neg hy, List.range_eq_range', ih, collision_drawColumns _ (by omega)]
      have ht (px py : Nat) (hpx : px < 64) (hs : spriteCovers mem base xc yc (i + 1) m px py) :
          pixelAt (drawColumns xc (yc + i) (mem.read (base + i)) (List.range' 0 8) acc).1 px py =
            pixelAt acc.1 px py := by
        refine (pixelAt_drawColumns _ (by omega) 8 0 acc hpx).2 fun e => ?_
        have := hs.1; omega
      constructor
      · rintro ((h | ⟨px, hpx, hc, hs⟩) | ⟨px, py, hpx, hpy, hc, hs⟩)
        · exact .inl h
        · exact .inr ⟨px, yc + i, hpx, by omega, .inl ⟨rfl, hc⟩, hs⟩
        · exact .inr ⟨px, py, hpx, hpy, .inr hc, by rwa [ht px py hpx hc] at hs⟩
      · rintro (h | ⟨px, py, hpx, hpy, ⟨rfl, hc⟩ | hc, hs⟩)
        · exact .inl (.inl h)
        · exact .inl (.inr ⟨px, hpx, hc, hs⟩)
        · exact .inr ⟨px, py, hpx, hpy, hc, by rwa [ht px py hpx hc]⟩

end Sys2Proof.Machine
end

