-- ==== Sys2Proof/Laws/PerInstr.lean ====
section
/-! SUPPORT. Per-instruction facts: one family, one lemma per constructor of Instr. -/

namespace Sys2Proof.Laws.EncodesRow

open Sys2Proof

/-- The word of a well-formed instruction falls under that instruction's own row of the opcode map, its exclusions
included (30_encoding.md R54). -/
def Statement (i : Instr) : Prop := i.wf = true → rowAccepts (rowOf i) (encode i) = true

/-! ### The fixed bits of each format (30_encoding.md R52) -/

theorem mask_packNNN (g : BitVec 4) (nnn : Addr12) : packNNN g nnn &&& 0xF000#16 = packNNN g 0 := by
  rw [show packNNN g nnn = (g ++ nnn : BitVec (4 + 12)) from rfl,
    show (0xF000#16 : BitVec (4 + 12)) = 0xF#4 ++ 0#12 from rfl, BitVec.and_append]
  rw [show (0xF#4 : BitVec 4) = BitVec.allOnes 4 from rfl, BitVec.and_allOnes, BitVec.and_zero]
  rfl

theorem mask_packXKK_high (g : BitVec 4) (x : Reg) (kk : Byte) : packXKK g x kk &&& 0xF000#16 = packXKK g 0 0 := by
  rw [show packXKK g x kk = (g ++ nibble x ++ kk : BitVec (4 + 4 + 8)) from rfl,
    show (0xF000#16 : BitVec (4 + 4 + 8)) = 0xF#4 ++ 0#4 ++ 0#8 from rfl, BitVec.and_append, BitVec.and_append]
  rw [show (0xF#4 : BitVec 4) = BitVec.allOnes 4 from rfl, BitVec.and_allOnes, BitVec.and_zero, BitVec.and_zero]
  rfl

theorem mask_packXKK_low (g : BitVec 4) (x : Reg) (kk : Byte) : packXKK g x kk &&& 0xF0FF#16 = packXKK g 0 kk := by
  rw [show packXKK g x kk = (g ++ nibble x ++ kk : BitVec (4 + 4 + 8)) from rfl,
    show (0xF0FF#16 : BitVec (4 + 4 + 8)) = 0xF#4 ++ 0#4 ++ 0xFF#8 from rfl, BitVec.and_append, BitVec.and_append]
  rw [show (0xF#4 : BitVec 4) = BitVec.allOnes 4 from rfl, show (0xFF#8 : BitVec 8) = BitVec.allOnes 8 from rfl,
    BitVec.and_allOnes, BitVec.and_zero, BitVec.and_allOnes]
  rfl

theorem mask_packXYN_high (g : BitVec 4) (x y n : Fin 16) : packXYN g x y n &&& 0xF000#16 = packXYN g 0 0 0 := by
  rw [show packXYN g x y n = (g ++ nibble x ++ nibble y ++ nibble n : BitVec (4 + 4 + 4 + 4)) from rfl,
    show (0xF000#16 : BitVec (4 + 4 + 4 + 4)) = 0xF#4 ++ 0#4 ++ 0#4 ++ 0#4 from rfl,
    BitVec.and_append, BitVec.and_append, BitVec.and_append]
  rw [show (0xF#4 : BitVec 4) = BitVec.allOnes 4 from rfl, BitVec.and_allOnes, BitVec.and_zero, BitVec.and_zero,
    BitVec.and_zero]
  rfl

theorem mask_packXYN_ends (g : BitVec 4) (x y n : Fin 16) : packXYN g x y n &&& 0xF00F#16 = packXYN g 0 0 n := by
  rw [show packXYN g x y n = (g ++ nibble x ++ nibble y ++ nibble n : BitVec (4 + 4 + 4 + 4)) from rfl,
    show (0xF00F#16 : BitVec (4 + 4 + 4 + 4)) = 0xF#4 ++ 0#4 ++ 0#4 ++ 0xF#4 from rfl,
    BitVec.and_append, BitVec.and_append, BitVec.and_append]
  rw [show (0xF#4 : BitVec 4) = BitVec.allOnes 4 from rfl, BitVec.and_allOnes, BitVec.and_zero, BitVec.and_zero,
    BitVec.and_allOnes]
  rfl

/-- A row without exclusions accepts a word whose masked bits are its pattern. -/
theorem accepts {p m op : Word} (h : op &&& m = p) : rowAccepts ⟨p, m, []⟩ op = true := by
  simp [rowAccepts, h]

/-! ### One lemma per instruction -/

theorem cls : Statement .cls := fun _ => rfl
theorem ret : Statement .ret := fun _ => rfl

theorem sys (nnn : Addr12) : Statement (.sys nnn) := by
  intro h
  have hn (c : Addr12) (hc : nnn ≠ c) : packNNN 0x0#4 nnn ≠ packNNN 0x0#4 c := fun e =>
    hc (by rw [← fieldNNN_packNNN 0x0#4 nnn, e, fieldNNN_packNNN])
  simp only [Instr.wf, Bool.and_eq_true, bne_iff_ne] at h
  have h1 := hn _ h.1
  have h2 := hn _ h.2
  rw [show packNNN 0x0#4 0x0E0#12 = 0x00E0#16 from rfl] at h1
  rw [show packNNN 0x0#4 0x0EE#12 = 0x00EE#16 from rfl] at h2
  simp only [rowOf, encode, rowAccepts, mask_packNNN]
  simp [h1, h2]
  rfl

theorem jp (nnn : Addr12) : Statement (.jp nnn) := fun _ => accepts (mask_packNNN _ nnn)
theorem call (nnn : Addr12) : Statement (.call nnn) := fun _ => accepts (mask_packNNN _ nnn)
theorem seImm (x : Reg) (kk : Byte) : Statement (.seImm x kk) := fun _ => accepts (mask_packXKK_high _ x kk)
theorem sneImm (x : Reg) (kk : Byte) : Statement (.sneImm x kk) := fun _ => accepts (mask_packXKK_high _ x kk)
theorem seReg (x y : Reg) : Statement (.seReg x y) := fun _ => accepts (mask_packXYN_ends _ x y _)
theorem ldImm (x : Reg) (kk : Byte) : Statement (.ldImm x kk) := fun _ => accepts (mask_packXKK_high _ x kk)
theorem addImm (x : Reg) (kk : Byte) : Statement (.addImm x kk) := fun _ => accepts (mask_packXKK_high _ x kk)
theorem ldReg (x y : Reg) : Statement (.ldReg x y) := fun _ => accepts (mask_packXYN_ends _ x y _)
theorem orReg (x y : Reg) : Statement (.orReg x y) := fun _ => accepts (mask_packXYN_ends _ x y _)
theorem andReg (x y : Reg) : Statement (.andReg x y) := fun _ => accepts (mask_packXYN_ends _ x y _)
theorem xorReg (x y : Reg) : Statement (.xorReg x y) := fun _ => accepts (mask_packXYN_ends _ x y _)
theorem addReg (x y : Reg) : Statement (.addReg x y) := fun _ => accepts (mask_packXYN_ends _ x y _)
theorem sub (x y : Reg) : Statement (.sub x y) := fun _ => accepts (mask_packXYN_ends _ x y _)
theorem shr (x y : Reg) : Statement (.shr x y) := fun _ => accepts (mask_packXYN_ends _ x y _)
theorem subn (x y : Reg) : Statement (.subn x y) := fun _ => accepts (mask_packXYN_ends _ x y _)
theorem shl (x y : Reg) : Statement (.shl x y) := fun _ => accepts (mask_packXYN_ends _ x y _)
theorem sneReg (x y : Reg) : Statement (.sneReg x y) := fun _ => accepts (mask_packXYN_ends _ x y _)
theorem ldI (nnn : Addr12) : Statement (.ldI nnn) := fun _ => accepts (mask_packNNN _ nnn)
theorem jpV0 (nnn : Addr12) : Statement (.jpV0 nnn) := fun _ => accepts (mask_packNNN _ nnn)
theorem rnd (x : Reg) (kk : Byte) : Statement (.rnd x kk) := fun _ => accepts (mask_packXKK_high _ x kk)
theorem drw (x y : Reg) (n : RowCount) : Statement (.drw x y n) := fun _ => accepts (mask_packXYN_high _ x y n)
theorem skp (x : Reg) : Statement (.skp x) := fun _ => accepts (mask_packXKK_low _ x _)
theorem sknp (x : Reg) : Statement (.sknp x) := fun _ => accepts (mask_packXKK_low _ x _)
theorem ldVxDT (x : Reg) : Statement (.ldVxDT x) := fun _ => accepts (mask_packXKK_low _ x _)
theorem ldVxK (x : Reg) : Statement (.ldVxK x) := fun _ => accepts (mask_packXKK_low _ x _)
theorem ldDTVx (x : Reg) : Statement (.ldDTVx x) := fun _ => accepts (mask_packXKK_low _ x _)
theorem ldSTVx (x : Reg) : Statement (.ldSTVx x) := fun _ => accepts (mask_packXKK_low _ x _)
theorem addIVx (x : Reg) : Statement (.addIVx x) := fun _ => accepts (mask_packXKK_low _ x _)
theorem ldFVx (x : Reg) : Statement (.ldFVx x) := fun _ => accepts (mask_packXKK_low _ x _)
theorem ldBVx (x : Reg) : Statement (.ldBVx x) := fun _ => accepts (mask_packXKK_low _ x _)
theorem ldMemVx (x : Reg) : Statement (.ldMemVx x) := fun _ => accepts (mask_packXKK_low _ x _)
theorem ldVxMem (x : Reg) : Statement (.ldVxMem x) := fun _ => accepts (mask_packXKK_low _ x _)

end Sys2Proof.Laws.EncodesRow
end

