-- ==== Sys2Proof/Tests/Slice0.lean ====
section
/-! SUPPORT. The model's own tests, each on fixed values: the smoke test of WellFormed; one word of every instruction
written out from the spec's encoding of it (30_encoding.md R52, R54); at most two one-step tests of an instruction, their
expected results from 95_test_vectors.md (the vector's number is in the comment) or worked out by hand from the rule
named; the host operations; and a witness for the hypotheses of every obligation that has some. -/

namespace Sys2Proof.Tests

-- One theorem after the other: each waits for the kernel, and many waiting at once exhaust the sandbox's threads.
set_option Elab.async false

open Sys2Proof Sys2Proof.Machine

/-! ### WellFormed: the two ill-formed terms are refused -/

theorem test_wf_refuses_sys_with_the_word_of_cls : Instr.wf (.sys 0x0E0#12) = false := by decide
theorem test_wf_refuses_sys_with_the_word_of_ret : Instr.wf (.sys 0x0EE#12) = false := by decide
theorem test_wf_accepts_the_words_beside_them :
    ([.sys 0x0E1#12, .sys 0x1E0#12, .sys 0xFEE#12, .cls, .ret] : List Instr).all Instr.wf = true := by decide

/-! ### Decode: a word of every row, from the formats of 30_encoding.md R52 -/

/-- Exact words, and format NNN: g, then nnn. -/
theorem test_decode_nnn :
    decode 0x00E0#16 = .instr .cls ∧
    decode 0x00EE#16 = .instr .ret ∧
    decode 0x0FEE#16 = .instr (.sys 0xFEE#12) ∧
    decode 0x1208#16 = .instr (.jp 0x208#12) ∧
    decode 0x2345#16 = .instr (.call 0x345#12) ∧
    decode 0xA9BC#16 = .instr (.ldI 0x9BC#12) ∧
    decode 0xB510#16 = .instr (.jpV0 0x510#12) := by decide +kernel

/-- Format XKK: g, then x, then kk. -/
theorem test_decode_xkk :
    decode 0x3142#16 = .instr (.seImm 1 0x42#8) ∧
    decode 0x4E9D#16 = .instr (.sneImm 14 0x9D#8) ∧
    decode 0x652A#16 = .instr (.ldImm 5 0x2A#8) ∧
    decode 0x75FF#16 = .instr (.addImm 5 0xFF#8) ∧
    decode 0xC00F#16 = .instr (.rnd 0 0x0F#8) := by decide +kernel

/-- Formats XY and XYN: g, then x, then y, then the low nibble. -/
theorem test_decode_xyn :
    decode 0x5120#16 = .instr (.seReg 1 2) ∧
    decode 0x8120#16 = .instr (.ldReg 1 2) ∧
    decode 0x8121#16 = .instr (.orReg 1 2) ∧
    decode 0x8122#16 = .instr (.andReg 1 2) ∧
    decode 0x8123#16 = .instr (.xorReg 1 2) ∧
    decode 0x8124#16 = .instr (.addReg 1 2) ∧
    decode 0x8125#16 = .instr (.sub 1 2) ∧
    decode 0x8126#16 = .instr (.shr 1 2) ∧
    decode 0x8127#16 = .instr (.subn 1 2) ∧
    decode 0x812E#16 = .instr (.shl 1 2) ∧
    decode 0x9120#16 = .instr (.sneReg 1 2) ∧
    decode 0xDAB5#16 = .instr (.drw 10 11 5) := by decide +kernel

/-- Format X: g, then x, then a fixed low byte. -/
theorem test_decode_x :
    decode 0xE39E#16 = .instr (.skp 3) ∧
    decode 0xE4A1#16 = .instr (.sknp 4) ∧
    decode 0xF307#16 = .instr (.ldVxDT 3) ∧
    decode 0xF20A#16 = .instr (.ldVxK 2) ∧
    decode 0xF215#16 = .instr (.ldDTVx 2) ∧
    decode 0xF218#16 = .instr (.ldSTVx 2) ∧
    decode 0xF11E#16 = .instr (.addIVx 1) ∧
    decode 0xF229#16 = .instr (.ldFVx 2) ∧
    decode 0xF433#16 = .instr (.ldBVx 4) ∧
    decode 0xF255#16 = .instr (.ldMemVx 2) ∧
    decode 0xFF65#16 = .instr (.ldVxMem 15) := by decide +kernel

/-- Vectors E5 to E9: illegal words are rejected by name. -/
theorem test_decode_rejects :
    ([0x5121#16, 0x912F#16, 0x8128#16, 0x812D#16, 0x812F#16, 0xE19F#16, 0xE1A2#16, 0xE100#16, 0xF100#16, 0xF108#16,
      0xF119#16, 0xF1FF#16, 0xF175#16] : List Word).all (fun op => decide (decode op = .unknown op)) = true := by
  decide +kernel

/-- The table's numbering: a row of 16 bits, the first byte the high one (20_memory.md R40). -/
theorem test_decodeTableWord :
    decodeTableWord 16 0x8125 = some (.sub 1 2) ∧ decodeTableWord 16 0x5121 = none := by decide +kernel

/-- A truncated instruction is none (30_encoding.md R50). -/
theorem test_decodeBytes :
    decodeBytes [0x60#8, 0x2A#8, 0xFF#8] = some (.instr (.ldImm 0 0x2A#8), [0xFF#8]) ∧
    decodeBytes [0x60#8] = none := by decide +kernel

/-! ### The states the tests start from -/

/-- Reset, with some registers set. -/
def regs (vs : List (Reg × Byte)) : State := vs.foldl (fun s p => s.setV p.1 p.2) State.reset

/-- The same, with bytes in memory from an address, and I at that address. -/
def regsMem (vs : List (Reg × Byte)) (a : Word) (bytes : List Byte) : State :=
  { regs vs with mem := Memory.writeList [] a.toNat bytes, I := a }

/-- The word is stored where the machine fetches next. -/
def put (op : Word) (s : State) : State := s.withFetchWord 16 op.toNat

/-- A view of the state after one step on the word. -/
def after (op : Word) (s : State) (view : State → α) : Option α :=
  match step (put op s) with
  | .next t => some (view t)
  | .fault _ => none
  | .refused _ => none

/-- Bytes of memory from an address upward. -/
def bytesAt (t : State) (a n : Nat) : List Byte := (List.range n).map fun j => t.mem.read (a + j)

/-! ### Control transfer (95_test_vectors.md L2.3) -/

/-- C1. -/
theorem test_sys : after 0x0123#16 (regs []) (fun t => (t.pc, t.terminate)) = some (0x202, false) := by decide +kernel
/-- E3: not RET. -/
theorem test_sys_fee : after 0x0FEE#16 (regs []) (fun t => (t.pc, t.diag)) = some (0x202, none) := by decide +kernel
/-- C2. -/
theorem test_jp : after 0x1208#16 (regs []) (fun t => t.pc) = some 0x208 := by decide +kernel
/-- C9: the return address is not masked. -/
theorem test_call :
    after 0x2400#16 { regs [] with pc := 0xFFE } (fun t => (t.stack[0], t.sp, t.pc)) = some (0x1000, 1, 0x400) := by
  decide +kernel
/-- C7. -/
theorem test_call_overflow :
    after 0x2300#16 { regs [] with sp := 16 } (fun t => (t.sp, t.pc, t.diag)) =
      some (16, 0x202, some (.stackOverflow 0x2300)) := by decide +kernel
/-- C6. -/
theorem test_ret :
    after 0x00EE#16 { regs [] with pc := 0x300, sp := 1, stack := (State.reset.stack).set 0 0x202 }
      (fun t => (t.sp, t.pc, t.stack[0])) = some (0, 0x202, 0x202) := by decide +kernel
/-- C8. -/
theorem test_ret_underflow :
    after 0x00EE#16 (regs []) (fun t => (t.sp, t.pc, t.diag)) = some (0, 0x202, some (.stackUnderflow 0x00EE)) := by
  decide +kernel
/-- C10 and C11. -/
theorem test_seImm :
    after 0x3342#16 (regs [(3, 0x42)]) (fun t => t.pc) = some 0x204 ∧
    after 0x3342#16 (regs [(3, 0x41)]) (fun t => t.pc) = some 0x202 := by decide +kernel
/-- C12 and C13. -/
theorem test_sneImm :
    after 0x4342#16 (regs [(3, 0x41)]) (fun t => t.pc) = some 0x204 ∧
    after 0x4342#16 (regs [(3, 0x42)]) (fun t => t.pc) = some 0x202 := by decide +kernel
/-- C14 and C15. -/
theorem test_seReg :
    after 0x5120#16 (regs [(1, 7), (2, 7)]) (fun t => t.pc) = some 0x204 ∧
    after 0x5120#16 (regs [(1, 7), (2, 8)]) (fun t => t.pc) = some 0x202 := by decide +kernel
/-- C17 and C18. -/
theorem test_sneReg :
    after 0x9120#16 (regs [(1, 7), (2, 8)]) (fun t => t.pc) = some 0x204 ∧
    after 0x9110#16 (regs [(1, 7)]) (fun t => t.pc) = some 0x202 := by decide +kernel
/-- C23: no mask. -/
theorem test_jpV0_unmasked : after 0xBF80#16 (regs [(0, 0xFF)]) (fun t => t.pc) = some 0x107F := by decide +kernel
/-- C25: x is part of nnn. -/
theorem test_jpV0_x : after 0xB510#16 (regs [(0, 2), (5, 0x40)]) (fun t => t.pc) = some 0x512 := by decide +kernel

/-! ### Arithmetic and logic (95_test_vectors.md L2.4) -/

/-- A1. -/
theorem test_ldImm : after 0x652A#16 (regs []) (fun t => (t.getV 5, t.pc)) = some (0x2A, 0x202) := by decide +kernel
/-- A2. -/
theorem test_addImm :
    after 0x75FF#16 (regs [(5, 0x10), (15, 0x33)]) (fun t => (t.getV 5, t.getV 15)) = some (0x0F, 0x33) := by
  decide +kernel
/-- A3. -/
theorem test_addImm_vf : after 0x7F05#16 (regs [(15, 0xFE)]) (fun t => t.getV 15) = some 0x03 := by decide +kernel
/-- A4. -/
theorem test_ldReg : after 0x8120#16 (regs [(2, 0x11)]) (fun t => (t.getV 1, t.getV 2)) = some (0x11, 0x11) := by
  decide +kernel
/-- A5. -/
theorem test_orReg :
    after 0x8121#16 (regs [(1, 0x0F), (2, 0xF0), (15, 0x55)]) (fun t => (t.getV 1, t.getV 15)) = some (0xFF, 0x55) := by
  decide +kernel
/-- A6. -/
theorem test_andReg :
    after 0x8122#16 (regs [(1, 0x3C), (2, 0x0F), (15, 0x55)]) (fun t => (t.getV 1, t.getV 15)) = some (0x0C, 0x55) := by
  decide +kernel
/-- A7. -/
theorem test_xorReg : after 0x8123#16 (regs [(1, 0xFF), (2, 0x0F)]) (fun t => t.getV 1) = some 0xF0 := by decide +kernel
/-- A9 and A10. -/
theorem test_addReg_carry :
    after 0x8124#16 (regs [(1, 0x80), (2, 0x7F)]) (fun t => (t.getV 1, t.getV 15)) = some (0xFF, 0) ∧
    after 0x8124#16 (regs [(1, 0x80), (2, 0x80)]) (fun t => (t.getV 1, t.getV 15)) = some (0x00, 1) := by decide +kernel
/-- A20 and A21. -/
theorem test_addReg_vf :
    after 0x8F14#16 (regs [(15, 0x80), (1, 0x90)]) (fun t => t.getV 15) = some 0x91 ∧
    after 0x81F4#16 (regs [(1, 0xF0), (15, 0x20)]) (fun t => (t.getV 1, t.getV 15)) = some (0xF1, 1) := by
  decide +kernel
/-- L1-5 and A12. -/
theorem test_sub :
    after 0x8125#16 (regs [(1, 10), (2, 20)]) (fun t => (t.getV 1, t.getV 15)) = some (246, 0) ∧
    after 0x8125#16 (regs [(1, 7), (2, 7)]) (fun t => (t.getV 1, t.getV 15)) = some (0, 1) := by decide +kernel
/-- A23 and A24. -/
theorem test_sub_vf :
    after 0x8F15#16 (regs [(15, 0x10), (1, 0x05)]) (fun t => t.getV 15) = some 0xFC ∧
    after 0x81F5#16 (regs [(1, 0x10), (15, 0x05)]) (fun t => (t.getV 1, t.getV 15)) = some (0x0F, 1) := by
  decide +kernel
/-- A13 and A14. -/
theorem test_shr :
    after 0x8126#16 (regs [(1, 0x05), (2, 0x99)]) (fun t => (t.getV 1, t.getV 2, t.getV 15)) = some (0x02, 0x99, 1) ∧
    after 0x8106#16 (regs [(1, 0x04)]) (fun t => (t.getV 1, t.getV 15)) = some (0x02, 0) := by decide +kernel
/-- A26. -/
theorem test_shr_vf : after 0x8F06#16 (regs [(15, 0x03)]) (fun t => t.getV 15) = some 0 := by decide +kernel
/-- A15 and A16. -/
theorem test_subn :
    after 0x8127#16 (regs [(1, 10), (2, 20)]) (fun t => (t.getV 1, t.getV 15)) = some (10, 1) ∧
    after 0x8127#16 (regs [(1, 20), (2, 10)]) (fun t => (t.getV 1, t.getV 15)) = some (246, 0) := by decide +kernel
/-- A28 and A29. -/
theorem test_subn_vf :
    after 0x8F17#16 (regs [(15, 0x05), (1, 0x10)]) (fun t => t.getV 15) = some 0x0F ∧
    after 0x81F7#16 (regs [(1, 0x10), (15, 0x05)]) (fun t => (t.getV 1, t.getV 15)) = some (0xF0, 0) := by
  decide +kernel
/-- A18 and A19. -/
theorem test_shl :
    after 0x810E#16 (regs [(1, 0x81)]) (fun t => (t.getV 1, t.getV 15)) = some (0x02, 1) ∧
    after 0x810E#16 (regs [(1, 0x7F)]) (fun t => (t.getV 1, t.getV 15)) = some (0xFE, 0) := by decide +kernel
/-- A27. -/
theorem test_shl_vf : after 0x8F0E#16 (regs [(15, 0x80)]) (fun t => t.getV 15) = some 2 := by decide +kernel
/-- A31: whatever the draw, the masked bits are 0. -/
theorem test_rnd_masked (s : State) : exec (.rnd 0 0) s = .next (s.consumeDraw.setV 0 0) := by
  simp [exec, execRnd]
/-- A32: with no mask the register holds the draw itself. -/
theorem test_rnd_whole (s : State) : exec (.rnd 0 0xFF) s = .next (s.consumeDraw.setV 0 (Config.rnd s.draws)) := by
  have h : Config.rnd s.draws &&& 0xFF#8 = Config.rnd s.draws := BitVec.and_allOnes
  simp [exec, execRnd, State.randomByte, h]

/-! ### Index register and memory (95_test_vectors.md L2.5) -/

/-- M1. -/
theorem test_ldI : after 0xA300#16 (regs []) (fun t => t.I) = some 0x300 := by decide +kernel
/-- M3: no fault, VF unchanged. -/
theorem test_addIVx :
    after 0xF11E#16 { regs [(1, 3), (15, 0x77)] with I := 0xFFE } (fun t => (t.I, t.getV 15, t.terminate)) =
      some (0x1001, 0x77, false) := by decide +kernel
/-- M5: the wrap is at 16 bits. -/
theorem test_addIVx_wrap : after 0xF11E#16 { regs [(1, 2)] with I := 0xFFFF } (fun t => t.I) = some 0x0001 := by
  decide +kernel
/-- M6 and M7. -/
theorem test_ldFVx :
    after 0xF229#16 (regs [(2, 0x0A)]) (fun t => t.I) = some 50 ∧
    after 0xF229#16 (regs [(2, 0xFF)]) (fun t => t.I) = some 1275 := by decide +kernel
/-- L1-9. -/
theorem test_ldBVx :
    after 0xF433#16 { regs [(4, 0xFF)] with I := 0x300 } (fun t => (bytesAt t 0x300 3, t.I)) =
      some ([2, 5, 5], 0x300) := by decide +kernel
/-- M11. -/
theorem test_ldBVx_bounds :
    after 0xF433#16 { regs [(4, 9)] with I := 0xFFE } (fun t => (bytesAt t 0xFFE 2, t.diag)) =
      some ([0, 0], some (.memoryBounds 0xF433 0x1000)) := by decide +kernel
/-- M12. -/
theorem test_ldMemVx :
    after 0xF255#16 { regs [(0, 1), (1, 2), (2, 3), (3, 4)] with I := 0x300 } (fun t => (bytesAt t 0x300 4, t.I)) =
      some ([1, 2, 3, 0], 0x300) := by decide +kernel
/-- M14. -/
theorem test_ldMemVx_bounds :
    after 0xFF55#16 { regs [(0, 9)] with I := 0xFF1 } (fun t => (bytesAt t 0xFF1 15, t.diag)) =
      some (List.replicate 15 0, some (.memoryBounds 0xFF55 0x1000)) := by decide +kernel
/-- M15. -/
theorem test_ldVxMem :
    after 0xF265#16 (regsMem [(3, 0x44)] 0x300 [9, 8, 7, 6]) (fun t => ([t.getV 0, t.getV 1, t.getV 2, t.getV 3], t.I)) =
      some ([9, 8, 7, 0x44], 0x300) := by decide +kernel
/-- M4: the address of the record is the lowest one above 4095. -/
theorem test_ldVxMem_bounds :
    after 0xF065#16 { regs [(0, 5)] with I := 0x1001 } (fun t => (t.getV 0, t.diag)) =
      some (5, some (.memoryBounds 0xF065 0x1001)) := by decide +kernel

/-! ### Display (95_test_vectors.md L2.6) -/

/-- D1. -/
theorem test_cls :
    after 0x00E0#16 { regs [(15, 7)] with fb := (State.reset.fb).set 100 true }
      (fun t => (t.fb.toList.any id, t.drawPending, t.getV 15)) = some (false, true, 7) := by decide +kernel
/-- L1-6: clipped at the right edge, not wrapped. -/
theorem test_drw_clips :
    after 0xD011#16 (regsMem [(0, 60), (1, 0)] 0x300 [0xFF])
      (fun t => ([59, 60, 61, 62, 63].map (pixelAt t.fb · 0), [0, 1, 2, 3].map (pixelAt t.fb · 0), pixelAt t.fb 0 1,
        t.getV 15, t.drawPending)) =
      some ([false, true, true, true, true], [false, false, false, false], false, 0, true) := by decide +kernel
/-- D9: collision; and D5: the bounds check comes before any effect. -/
theorem test_drw_collision_and_bounds :
    after 0xD011#16 { regsMem [] 0x300 [0x18] with fb := (State.reset.fb).set 3 true }
      (fun t => (pixelAt t.fb 3 0, pixelAt t.fb 4 0, t.getV 15)) = some (false, true, 1) ∧
    after 0xD015#16 { regs [(1, 30), (15, 7)] with I := 0xFFF } (fun t => (t.getV 15, t.drawPending, t.diag)) =
      some (7, false, some (.memoryBounds 0xD015 0x1000)) := by decide +kernel

/-! ### Keypad and timers (95_test_vectors.md L2.7) -/

/-- K1 and K2. -/
theorem test_skp :
    after 0xE19E#16 (setKey 5 (regs [(1, 5)])) (fun t => (t.pc, t.keyDown 5)) = some (0x204, true) ∧
    after 0xE19E#16 (setKey 5 (regs [(1, 4)])) (fun t => t.pc) = some 0x202 := by decide +kernel
/-- K5. -/
theorem test_skp_index :
    after 0xE19E#16 (regs [(1, 0x10)]) (fun t => (t.pc, t.diag)) = some (0x202, some (.keyIndex 0xE19E 0x10)) := by
  decide +kernel
/-- K3 and K4. -/
theorem test_sknp :
    after 0xE1A1#16 (regs [(1, 5)]) (fun t => t.pc) = some 0x204 ∧
    after 0xE1A1#16 (setKey 5 (regs [(1, 5)])) (fun t => t.pc) = some 0x202 := by decide +kernel
/-- K6. -/
theorem test_sknp_index :
    after 0xE1A1#16 (regs [(1, 0xFF)]) (fun t => (t.pc, t.diag)) = some (0x202, some (.keyIndex 0xE1A1 0xFF)) := by
  decide +kernel
/-- K8. -/
theorem test_ldVxDT :
    after 0xF307#16 { regs [] with DT := 7 } (fun t => (t.getV 3, t.DT)) = some (7, 6) := by decide +kernel
/-- K9. -/
theorem test_ldVxK_waits :
    after 0xF20A#16 { regs [(2, 1)] with DT := 2 } (fun t => (t.pc, t.getV 2, t.DT)) = some (0x200, 1, 1) := by
  decide +kernel
/-- K11. -/
theorem test_ldVxK_loads :
    after 0xF20A#16 (setKey 4 (regs [])) (fun t => (t.pc, t.getV 2, t.keyDown 4)) = some (0x202, 4, true) := by
  decide +kernel
/-- K13. -/
theorem test_ldDTVx : after 0xF215#16 (regs [(2, 5)]) (fun t => t.DT) = some 4 := by decide +kernel
/-- K15, its first cycle. -/
theorem test_ldSTVx : after 0xF218#16 (regs [(2, 3)]) (fun t => (t.tone, t.ST)) = some (true, 2) := by decide +kernel
/-- K16. -/
theorem test_ldSTVx_zero :
    after 0xF218#16 { regs [] with ST := 5 } (fun t => (t.tone, t.ST)) = some (false, 0) := by decide +kernel

/-! ### The cycle (95_test_vectors.md L2.1) -/

/-- T2: an odd pc. -/
theorem test_cycle_odd_pc :
    after 0x6107#16 { regs [] with pc := 0x201 } (fun t => (t.getV 1, t.pc)) = some (0x07, 0x203) := by decide +kernel
/-- T3: the last legal fetch. -/
theorem test_cycle_last_fetch :
    after 0x0000#16 { regs [] with pc := 0xFFE } (fun t => (t.pc, t.terminate)) = some (0x1000, false) := by
  decide +kernel
/-- T4: the fetch fault leaves pc and ticks. -/
theorem test_cycle_fetch_fault :
    (match step { regs [] with pc := 0xFFF, DT := 3 } with
     | .next t => some (t.pc, t.DT, t.diag)
     | .fault _ => none
     | .refused _ => none) = some (0xFFF, 2, some (.fetchBounds 0xFFF)) := by decide +kernel
/-- E5: an unknown word; the record carries it and pc has advanced. -/
theorem test_cycle_unknown :
    after 0x5121#16 { regs [] with ST := 1 } (fun t => (t.pc, t.diag, t.terminate, t.tone)) =
      some (0x202, some (.unknownOpcode 0x5121), true, true) := by decide +kernel
/-- The six codes (60_exceptions.md R111). -/
theorem test_fatal_codes :
    ([.unknownOpcode 0, .stackOverflow 0, .stackUnderflow 0, .memoryBounds 0 4096, .fetchBounds 0, .keyIndex 0 16] :
      List Fatal).map fatalCode = [1, 2, 3, 4, 5, 6] := by decide

/-! ### Host operations (95_test_vectors.md L1-2, L2.8) -/

/-- L1-2. -/
theorem test_load :
    ((load (some [0x12, 0x34, 0xAB]) State.reset).1 |> fun t => bytesAt t 0x1FF 5) = [0, 0x12, 0x34, 0xAB, 0] ∧
    (load (some [0x12, 0x34, 0xAB]) State.reset).2 = .success := by decide +kernel
/-- L1-2: an image too long (D15). -/
theorem test_load_too_long : (load (some (List.replicate 3585 1)) State.reset).2 = .failure := by decide +kernel
/-- K7. -/
theorem test_setKey : ((setKey 9 (setKey 3 State.reset)).key.toList.zipIdx.filter (·.1)).map (·.2) = [9] := by
  decide +kernel
/-- H3, H4. -/
theorem test_host_reads :
    readPixel 2048 State.reset = none ∧ readPixel 0 State.reset = some false ∧
    (hostRun [.readDraw, .readDraw] { State.reset with drawPending := true }).2 = [.flag true, .flag false] := by
  decide +kernel
/-- H6: after a fault the machine goes on and terminate stays. -/
theorem test_runs_on_after_a_fault :
    after 0x60AB#16 { regs [] with terminate := true, diag := some (.fetchBounds 0xFFF) }
      (fun t => (t.getV 0, t.diag, t.terminate)) = some (0xAB, none, true) := by decide +kernel
/-- From reset the stored word is the one that runs (log entries 5, 6). -/
theorem test_withFetchWord :
    nextInstr (State.reset.withFetchWord 16 0x8125) = some (.sub 1 2) ∧
    nextInstr ({ State.reset with pc := 0xFFFF }.withFetchWord 16 0x8125) = some (.sub 1 2) := by decide +kernel

/-! ### Witnesses: the hypotheses of each obligation are met together, each clause at a boundary value -/

/-- Whether a step or a meaning answered a next state. -/
def isNext : Res → Bool
  | .next _ => true
  | .fault _ => false
  | .refused _ => false

theorem exists_of_isNext {r : Res} (h : isNext r = true) : ∃ t, r = .next t := by
  cases r with
  | next t => exact ⟨t, rfl⟩
  | fault _ => nomatch h
  | refused _ => nomatch h

/-- A state with two keys' worth of history, a byte of program, a pixel, a return address and running timers. -/
def busy : State :=
  { setKey 9 (regsMem [(0, 3), (14, 200), (15, 100)] 0x200 [0x80, 0xE4]) with
    sp := 15, DT := 7, ST := 1, fb := (State.reset.fb).set 0 true, drawPending := true }

theorem witness_DecodeUndoesEncode : Instr.wf (.sys 0x0E1#12) = true ∧ Instr.wf (.drw 15 15 15) = true := by decide

theorem witness_EncodeUndoesDecode : decode 0xDFFF#16 = .instr (.drw 15 15 15) := by decide +kernel

theorem witness_OpcodeMapDecidesEveryWord :
    (∃ r ∈ opcodeRows, rowAccepts r 0x00E1#16 = true) ∧ (∀ r ∈ opcodeRows, rowAccepts r 0x800F#16 = false) := by
  decide +kernel

/-- One state for each clause: pc = 4095; pc = 4094 with an instruction there; pc = 4094 with an illegal word. -/
theorem witness_CycleFetchesAdvancesExecutesTicks :
    (∃ s : State, s.pc.toNat ≥ 4095) ∧
    (∃ (s : State) (i : Instr) (t : State), s.pc.toNat < 4095 ∧
      decode ((s.mem.read s.pc.toNat).setWidth 16 <<< 8 ||| (s.mem.read (s.pc.toNat + 1)).setWidth 16) = .instr i ∧
      exec i { s with tone := false, diag := none, pc := s.pc + 2 } = .next t) ∧
    (∃ (s : State) (op : Word), s.pc.toNat < 4095 ∧
      op = (s.mem.read s.pc.toNat).setWidth 16 <<< 8 ||| (s.mem.read (s.pc.toNat + 1)).setWidth 16 ∧
      decode op = .unknown op) := by
  refine ⟨⟨{ busy with pc := 4095 }, by decide⟩, ⟨put 0x8124#16 { busy with pc := 4094 }, .addReg 1 2, ?_⟩,
    ⟨put 0x800F#16 { busy with pc := 4094 }, 0x800F#16, by decide +kernel, by decide +kernel, by decide +kernel⟩⟩
  obtain ⟨t, ht⟩ := exists_of_isNext (r := exec (.addReg 1 2)
    { put 0x8124#16 { busy with pc := 4094 } with
      tone := false, diag := none, pc := (put 0x8124#16 { busy with pc := 4094 }).pc + 2 }) rfl
  exact ⟨t, by decide +kernel, by decide +kernel, ht⟩

theorem witness_DelayTimerCountsDownEveryCycle :
    ∃ s t : State, step s = .next t ∧ (∀ x, nextInstr s ≠ some (.ldDTVx x)) ∧ s.DT ≠ 0 := by
  obtain ⟨t, ht⟩ := exists_of_isNext (r := step busy) (by decide +kernel)
  exact ⟨busy, t, ht, by decide +kernel, by decide⟩

theorem witness_SoundTimerCountsDownAndSounds :
    ∃ s t : State, step s = .next t ∧ (∀ x, nextInstr s ≠ some (.ldSTVx x)) ∧ s.ST = 1 := by
  obtain ⟨t, ht⟩ := exists_of_isNext (r := step busy) (by decide +kernel)
  exact ⟨busy, t, ht, by decide +kernel, rfl⟩

/-- One state for each clause. -/
theorem witness_LoadedTimersTickInTheSameCycle :
    (∃ s t : State, step s = .next t ∧ nextInstr s = some (.ldDTVx 14)) ∧
    (∃ s t : State, step s = .next t ∧ nextInstr s = some (.ldSTVx 14)) := by
  obtain ⟨t, ht⟩ := exists_of_isNext (r := step (put 0xFE15#16 busy)) (by decide +kernel)
  obtain ⟨u, hu⟩ := exists_of_isNext (r := step (put 0xFE18#16 busy)) (by decide +kernel)
  exact ⟨⟨_, t, ht, by decide +kernel⟩, ⟨_, u, hu, by decide +kernel⟩⟩

/-- Every row of the table is met by some state, at its boundary. -/
theorem witness_FatalConditionHasNoOtherEffect :
    expectedFatal { busy with pc := 4095 } = some (.fetchBounds 4095) ∧
    expectedFatal (put 0x800F#16 busy) = some (.unknownOpcode 0x800F) ∧
    expectedFatal (put 0x2300#16 { busy with sp := 16 }) = some (.stackOverflow 0x2300) ∧
    expectedFatal (put 0x00EE#16 { busy with sp := 0 }) = some (.stackUnderflow 0x00EE) ∧
    expectedFatal (put 0xF033#16 { busy with I := 4094 }) = some (.memoryBounds 0xF033 4096) ∧
    expectedFatal (put 0xE19E#16 (busy.setV 1 16)) = some (.keyIndex 0xE19E 16) := by decide +kernel

theorem witness_DiagIsTheRowOfTheFatalTable :
    (∃ s t : State, step s = .next t ∧ expectedFatal s = some (.fetchBounds 4095)) ∧
    (∃ s t : State, step s = .next t ∧ expectedFatal s = none) := by
  obtain ⟨t, ht⟩ := exists_of_isNext (r := step { busy with pc := 4095 }) (by decide +kernel)
  obtain ⟨u, hu⟩ := exists_of_isNext (r := step busy) (by decide +kernel)
  exact ⟨⟨_, t, ht, by decide +kernel⟩, ⟨_, u, hu, by decide +kernel⟩⟩

theorem witness_TerminateIsStickyAndNotRead : ∃ s t : State, s.terminate = false ∧ step s = .next t := by
  obtain ⟨t, ht⟩ := exists_of_isNext (r := step busy) (by decide +kernel)
  exact ⟨busy, t, rfl, ht⟩

theorem witness_SysDoesNothingAndJpJumps : ∃ nnn : Addr12, nnn ≠ 0x0E0#12 ∧ nnn ≠ 0x0EE#12 := ⟨0x0E1#12, by decide⟩

/-- sp = 1 and sp = 16 pop; sp = 0 does not. -/
theorem witness_RetPopsTheReturnAddress :
    (∃ (s : State) (k : Nat), k < 16 ∧ k = 0 ∧ s.sp.val = k + 1) ∧
    (∃ (s : State) (k : Nat), k < 16 ∧ k = 15 ∧ s.sp.val = k + 1) ∧ (∃ s : State, s.sp.val = 0) :=
  ⟨⟨{ busy with sp := 1 }, 0, by decide⟩, ⟨{ busy with sp := 16 }, 15, by decide⟩, ⟨{ busy with sp := 0 }, rfl⟩⟩

/-- sp = 15 pushes; sp = 16 does not. -/
theorem witness_CallPushesTheReturnAddress :
    (∃ s : State, s.sp.val < 16 ∧ s.sp.val = 15) ∧ (∃ s : State, s.sp.val = 16) :=
  ⟨⟨busy, by decide⟩, ⟨{ busy with sp := 16 }, rfl⟩⟩

/-- The sixteenth CALL, and a RET with other registers than at the CALL. -/
theorem witness_RetUndoesCall :
    ∃ (nnn : Addr12) (s t u : State), s.sp.val < 16 ∧ exec (.call nnn) s = .next t ∧ u.sp = t.sp ∧ u.stack = t.stack ∧
      u.pc ≠ t.pc := by
  obtain ⟨t, ht⟩ := exists_of_isNext (r := exec (.call 0x300#12) busy) rfl
  exact ⟨0x300#12, busy, t, { t with pc := t.pc + 2 }, by decide, ht, rfl, rfl, fun h => by
    have h2 := congrArg BitVec.toNat h
    simp at h2
    omega⟩

theorem witness_SkipsCompareTwoRegisters : ∃ n : BitVec 4, n ≠ 0x0#4 := ⟨0xF#4, by decide⟩

theorem witness_VfAsAnOperand : ∃ (x y : Reg) (s : State), x ≠ 15 ∧ y ≠ 15 ∧ s.getV 15 ≠ 0 :=
  ⟨14, 0, busy, by decide, by decide, by decide +kernel⟩

theorem witness_ArithmeticLawsAwayFromVf : ∃ x y : Reg, x ≠ 15 ∧ y ≠ 15 ∧ x = y := ⟨14, 14, by decide⟩

/-- I + 2 = 4095 and I + 2 = 4096. -/
theorem witness_BcdStoresThreeDigits :
    (∃ s : State, s.I.toNat + 2 ≤ 4095 ∧ s.I.toNat + 2 = 4095) ∧
    (∃ s : State, s.I.toNat + 2 > 4095 ∧ s.I.toNat + 2 = 4096) :=
  ⟨⟨{ busy with I := 4093 }, by decide⟩, ⟨{ busy with I := 4094 }, by decide⟩⟩

/-- I + x = 4095 and I + x = 4096, with x = 15. -/
theorem witness_StoreBlockWritesV0ToVx :
    (∃ (x : Reg) (s : State), s.I.toNat + x.val ≤ 4095 ∧ s.I.toNat + x.val = 4095) ∧
    (∃ (x : Reg) (s : State), s.I.toNat + x.val > 4095 ∧ s.I.toNat + x.val = 4096) :=
  ⟨⟨15, { busy with I := 4080 }, by decide⟩, ⟨15, { busy with I := 4081 }, by decide⟩⟩

/-- I + x = 4095 and I + x = 4096, with x = 0. -/
theorem witness_LoadBlockReadsV0ToVx :
    (∃ (x : Reg) (s : State), s.I.toNat + x.val ≤ 4095 ∧ s.I.toNat + x.val = 4095) ∧
    (∃ (x : Reg) (s : State), s.I.toNat + x.val > 4095 ∧ s.I.toNat + x.val = 4096) :=
  ⟨⟨0, { busy with I := 4095 }, by decide⟩, ⟨0, { busy with I := 4096 }, by decide⟩⟩

/-- The registers differ between the store and the load. -/
theorem witness_StoresAreSeenByLaterLoadsAndFetches :
    (∃ (x : Reg) (s t u : State), s.I.toNat + x.val ≤ 4095 ∧ exec (.ldMemVx x) s = .next t ∧ u.mem = t.mem ∧ u.I = s.I ∧
      u.getV 0 ≠ s.getV 0) ∧
    (∃ s t : State, s.I.toNat + 1 ≤ 4095 ∧ exec (.ldMemVx 1) s = .next t ∧ s.getV 0 ≠ 0) := by
  obtain ⟨t, ht⟩ := exists_of_isNext (r := exec (.ldMemVx 15) { busy with I := 4080 }) (by decide +kernel)
  obtain ⟨u, hu⟩ := exists_of_isNext (r := exec (.ldMemVx 1) { busy with I := 4094 }) (by decide +kernel)
  have h : (({ busy with I := 4080 } : State).setV 0 9).getV 0 ≠ ({ busy with I := 4080 } : State).getV 0 := by
    decide +kernel
  exact ⟨⟨15, { busy with I := 4080 }, t, { ({ busy with I := 4080 } : State).setV 0 9 with mem := t.mem },
    by decide, ht, rfl, rfl, h⟩, ⟨{ busy with I := 4094 }, u, by decide, hu, by decide +kernel⟩⟩

theorem witness_CanonicalMemoriesThatReadAlikeAreEqual :
    ∃ m1 m2 : Memory, m1.wf = true ∧ m2.wf = true ∧ (∀ a, m1.read a = m2.read a) ∧ m1 ≠ [] :=
  ⟨[(512, 1), (513, 2)], Memory.writeList [] 512 [1, 2], by decide +kernel, by decide +kernel, fun _ => rfl, by decide⟩

/-- No row (n = 0, I past memory); the last row at 4095, with a covered pixel that is set; the last row at 4096. -/
theorem witness_DrwXorsTheClippedSprite :
    (∃ (y : Reg) (n : RowCount) (s : State), min n.val (32 - (s.getV y).toNat % 32) = 0 ∧ s.I.toNat = 65535) ∧
    (∃ (n : RowCount) (s : State), n.val = 1 ∧ s.I.toNat + min n.val (32 - (s.getV 1).toNat % 32) - 1 = 4095 ∧
      (s.mem.read (s.I.toNat + (0 - (s.getV 1).toNat % 32))).getLsbD (7 - (0 - (s.getV 1).toNat % 64)) = true ∧
      pixelAt s.fb 0 0 = true) ∧
    (∃ (n : RowCount) (s : State), min n.val (32 - (s.getV 1).toNat % 32) > 0 ∧
      s.I.toNat + min n.val (32 - (s.getV 1).toNat % 32) - 1 = 4096) :=
  ⟨⟨1, 0, { busy with I := 65535 }, by decide +kernel⟩,
    ⟨1, { regsMem [] 4095 [0x80] with fb := (State.reset.fb).set 0 true }, by decide +kernel⟩,
    ⟨2, { busy with I := 4095 }, by decide +kernel⟩⟩

theorem witness_DrawingTwiceRestores :
    ∃ (x y : Reg) (n : RowCount) (s t u : State), x ≠ 15 ∧ y ≠ 15 ∧ n ≠ 0 ∧
      instrFatal (encode (.drw x y n)) (.drw x y n) s = none ∧
      exec (.drw x y n) s = .next t ∧ exec (.drw x y n) t = .next u := by
  have h : isNext (exec (.drw 0 1 2) busy) = true := by decide +kernel
  obtain ⟨t, ht⟩ := exists_of_isNext h
  have h2 : (match exec (.drw 0 1 2) busy with | .next t => isNext (exec (.drw 0 1 2) t) | _ => false) = true := by
    decide +kernel
  rw [ht] at h2
  obtain ⟨u, hu⟩ := exists_of_isNext h2
  exact ⟨0, 1, 2, busy, t, u, by decide, by decide, by decide, by decide +kernel, ht, hu⟩

/-- Vx = 15 and Vx = 16. -/
theorem witness_KeySkipsReadTheLatch :
    (∃ (x : Reg) (s : State), (s.getV x).toNat < 16 ∧ (s.getV x).toNat = 15) ∧
    (∃ (x : Reg) (s : State), (s.getV x).toNat > 15 ∧ (s.getV x).toNat = 16) :=
  ⟨⟨1, regs [(1, 15)], by decide +kernel⟩, ⟨1, regs [(1, 16)], by decide +kernel⟩⟩

theorem witness_ReadDelayTimer : ∃ s t : State, nextInstr s = some (.ldVxDT 3) ∧ step s = .next t ∧ s.DT = 7 := by
  obtain ⟨t, ht⟩ := exists_of_isNext (r := step (put 0xF307#16 busy)) (by decide +kernel)
  exact ⟨put 0xF307#16 busy, t, by decide +kernel, ht, by decide +kernel⟩

/-- Key 15 alone down; no key down; a waiting state. -/
theorem witness_KeyWaitLoadsOrRepeats :
    (∃ (s : State) (k : Reg), s.key[k.val] = true ∧ (∀ j : Reg, j < k → s.key[j.val] = false) ∧ k = 15) ∧
    (∃ s : State, ∀ k : Reg, s.key[k.val] = false) ∧ (∃ s : State, Waiting s) :=
  ⟨⟨setKey 15 (regs []), 15, by decide +kernel⟩, ⟨regs [], by decide +kernel⟩,
    ⟨put 0xF20A#16 (regs []), 2, by decide +kernel, by decide +kernel⟩⟩

theorem witness_IdleStateOnlyTicks : ∃ s : State, Idle s ∧ s.DT = 7 :=
  ⟨put 0x1200#16 busy, ⟨0x200#12, by decide +kernel, by decide +kernel⟩, by decide +kernel⟩

/-- Each instruction that a frame names answers a next state: `busy` for the forms that run, and the state of the fatal
condition for those that raise one. -/
theorem witness_RegisterFormsFrame :
    ∀ i ∈ [Instr.ldImm 1 9, .addImm 1 9, .ldReg 1 2, .orReg 1 2, .andReg 1 2, .xorReg 1 2, .ldVxDT 1, .rnd 1 9,
      .addReg 1 2, .sub 1 2, .shr 1 2, .subn 1 2, .shl 1 2], ∃ t, exec i busy = .next t := by
  have h : ∀ i ∈ [Instr.ldImm 1 9, .addImm 1 9, .ldReg 1 2, .orReg 1 2, .andReg 1 2, .xorReg 1 2, .ldVxDT 1, .rnd 1 9,
      .addReg 1 2, .sub 1 2, .shr 1 2, .subn 1 2, .shl 1 2], isNext (exec i busy) = true := by decide +kernel
  exact fun i hi => exists_of_isNext (h i hi)

theorem witness_PcFormsFrame :
    ∀ i ∈ [Instr.sys 0, .jp 9, .jpV0 9, .seImm 1 9, .sneImm 1 9, .seReg 1 2, .sneReg 1 2, .skp 1, .sknp 1, .skp 14,
      .sknp 14], ∃ t, exec i busy = .next t := by
  have h : ∀ i ∈ [Instr.sys 0, .jp 9, .jpV0 9, .seImm 1 9, .sneImm 1 9, .seReg 1 2, .sneReg 1 2, .skp 1, .sknp 1,
      .skp 14, .sknp 14], isNext (exec i busy) = true := by decide +kernel
  exact fun i hi => exists_of_isNext (h i hi)

theorem witness_StackFormsFrame :
    ∀ s ∈ [busy, { busy with sp := 16 }, { busy with sp := 0 }],
      (∃ t, exec (.call 0x300) s = .next t) ∧ ∃ t, exec .ret s = .next t := by
  have h : ∀ s ∈ [busy, { busy with sp := 16 }, { busy with sp := 0 }],
      isNext (exec (.call 0x300) s) = true ∧ isNext (exec .ret s) = true := by decide +kernel
  exact fun s hs => ⟨exists_of_isNext (h s hs).1, exists_of_isNext (h s hs).2⟩

theorem witness_MemoryFormsFrame :
    ∀ s ∈ [busy, { busy with I := 4095 }], ∀ i ∈ [Instr.ldBVx 1, .ldMemVx 1, .ldVxMem 1], ∃ t, exec i s = .next t := by
  have h : ∀ s ∈ [busy, { busy with I := 4095 }], ∀ i ∈ [Instr.ldBVx 1, .ldMemVx 1, .ldVxMem 1],
      isNext (exec i s) = true := by decide +kernel
  exact fun s hs i hi => exists_of_isNext (h s hs i hi)

/-- A run that draws, one that is out of bounds, and (vector D6) n = 0 with I above 4096: no unclipped row, so the
frame's condition on terminate and diag is not met there though base + rows is above 4096. -/
theorem witness_DisplayFormsFrame :
    (∀ s ∈ [busy, { busy with I := 4095 }], ∀ i ∈ [Instr.cls, .drw 0 1 2], ∃ t, exec i s = .next t) ∧
    (∃ (n : RowCount) (s t : State), n = 0 ∧ exec (.drw 0 1 n) s = .next t ∧
      s.base + visibleRows n (startRow (s.getV 1)) > 4096 ∧ ¬ 0 < visibleRows n (startRow (s.getV 1))) := by
  have h : ∀ s ∈ [busy, { busy with I := 4095 }], ∀ i ∈ [Instr.cls, .drw 0 1 2], isNext (exec i s) = true := by
    decide +kernel
  obtain ⟨t, ht⟩ := exists_of_isNext (r := exec (.drw 0 1 0) { busy with I := 0x2000 }) (by decide +kernel)
  exact ⟨fun s hs i hi => exists_of_isNext (h s hs i hi), 0, { busy with I := 0x2000 }, t, rfl, ht, by decide +kernel,
    by decide +kernel⟩

theorem witness_IndexTimerAndKeyFormsFrame :
    ∀ s ∈ [busy, regs []], ∀ i ∈ [Instr.ldI 9, .addIVx 1, .ldFVx 1, .ldVxK 1, .ldDTVx 1, .ldSTVx 1],
      ∃ t, exec i s = .next t := by
  have h : ∀ s ∈ [busy, regs []], ∀ i ∈ [Instr.ldI 9, .addIVx 1, .ldFVx 1, .ldVxK 1, .ldDTVx 1, .ldSTVx 1],
      isNext (exec i s) = true := by decide +kernel
  exact fun s hs i hi => exists_of_isNext (h s hs i hi)

/-- A view of the state before and after one step on the word. -/
def changed (op : Word) (s : State) (p : State → State → Bool) : Bool :=
  match step (put op s) with
  | .next t => p (put op s) t
  | .fault _ => false
  | .refused _ => false

/-- Each clause: a cycle that changes the framebuffer, a byte of memory, I, and sp. -/
theorem witness_OnlyTheNamedInstructionsWrite :
    changed 0x00E0#16 busy (fun s t => pixelAt s.fb 0 0 != pixelAt t.fb 0 0) = true ∧
    changed 0xF033#16 { busy with I := 4093 } (fun s t => s.mem.read 4095 != t.mem.read 4095) = true ∧
    changed 0xA300#16 busy (fun s t => s.I != t.I) = true ∧
    changed 0x2300#16 busy (fun s t => s.sp != t.sp) = true := by decide +kernel

/-- Each disjunct: a flag-producing form, and a form that names VF as its destination. -/
theorem witness_OnlyTheNamedInstructionsWriteVf :
    changed 0x8124#16 busy (fun s t => s.getV 15 != t.getV 15) = true ∧
    changed 0x6F09#16 busy (fun s t => s.getV 15 != t.getV 15) = true := by decide +kernel

/-- A plain instruction, a skip and a waiting key wait. -/
theorem witness_PcAdvancesByTwoOrFour :
    ∀ p ∈ [((0x8124#16 : Word), Instr.addReg 1 2), (0x3100#16, .seImm 1 0), (0xF10A#16, .ldVxK 1)],
      nextInstr (put p.1 busy) = some p.2 ∧ ∃ t, step (put p.1 busy) = .next t := by
  have h : ∀ p ∈ [((0x8124#16 : Word), Instr.addReg 1 2), (0x3100#16, .seImm 1 0), (0xF10A#16, .ldVxK 1)],
      nextInstr (put p.1 busy) = some p.2 ∧ isNext (step (put p.1 busy)) = true := by decide +kernel
  exact fun p hp => ⟨(h p hp).1, exists_of_isNext (h p hp).2⟩

theorem busy_inv : busy.Inv := by
  refine ⟨by decide +kernel, ?_⟩
  unfold atMostOneKey
  decide +kernel

theorem witness_StepKeepsTheInvariant : ∃ s t : State, s.Inv ∧ step s = .next t ∧ s.mem ≠ [] := by
  obtain ⟨t, ht⟩ := exists_of_isNext (r := step busy) (by decide +kernel)
  exact ⟨busy, t, busy_inv, ht, by decide +kernel⟩

theorem witness_HostOperationsKeepTheInvariant : ∃ s : State, s.Inv ∧ s.keyDown 9 = true :=
  ⟨busy, busy_inv, by decide +kernel⟩

/-- The longest image that loads, and the shortest that does not. -/
theorem witness_LoadPlacesTheImageOrFails :
    (∃ b : List Byte, b.length ≤ 3584 ∧ b.length = 3584) ∧ (∃ b : List Byte, b.length > 3584 ∧ b.length = 3585) :=
  by
  refine ⟨⟨List.replicate 3584 7, ?_⟩, ⟨List.replicate 3585 7, ?_⟩⟩ <;> rw [List.length_replicate] <;> decide

/-- Both sides of the range of `read_pixel`. -/
theorem witness_HostReads : (∃ i : Int, (i < 0 ∨ 2047 < i) ∧ i = -1) ∧ (∃ i : Int, (i < 0 ∨ 2047 < i) ∧ i = 2048) :=
  ⟨⟨-1, by decide⟩, ⟨2048, by decide⟩⟩

theorem witness_InitialiseResetsEverything : (∃ a : Nat, a < 80 ∧ a = 79) ∧ (∃ a : Nat, 80 ≤ a ∧ a = 80) :=
  ⟨⟨79, by decide⟩, ⟨80, by decide⟩⟩

theorem witness_ClsClearsTheFramebuffer : ∃ p : Nat, p < 2048 ∧ p = 2047 := ⟨2047, by decide⟩

end Sys2Proof.Tests
end

/-! ### Terminate: raised by every fatal condition, lowered by `initialise` only, read by no cycle (10_state.md R26) -/

namespace Sys2Proof.Machine

open Sys2Proof

/-! #### What executing an instruction does to `terminate` and `diag` -/

/-- An answer raises the fatal condition `f` in `s` and does nothing else; for no `f`, it is a next state with `terminate`
and `diag` as they were (60_exceptions.md R112, R121). -/
def RaisesExactly (f : Option Fatal) (s : State) (r : Res) : Prop :=
  match f with
  | some f => r = .next (raiseFatal f s)
  | none => ∃ t, r = .next t ∧ t.terminate = s.terminate ∧ t.diag = s.diag

theorem raisesExactly_some {f : Fatal} {s : State} {r : Res} :
    RaisesExactly (some f) s r ↔ r = .next (raiseFatal f s) := Iff.rfl

theorem raisesExactly_none {s t : State} (hterm : t.terminate = s.terminate) (hdiag : t.diag = s.diag) :
    RaisesExactly none s (.next t) := ⟨t, rfl, hterm, hdiag⟩

/-- An answer that raises exactly `f` is a next state, and `terminate` is raised if `f` is a condition. -/
theorem RaisesExactly.exists_next {f : Option Fatal} {s : State} {r : Res} (h : RaisesExactly f s r) :
    ∃ t, r = .next t ∧ t.terminate = (s.terminate || f.isSome) := by
  cases f with
  | some f => exact ⟨_, h, by simp⟩
  | none =>
    obtain ⟨t, ht, hterm, -⟩ := h
    exact ⟨t, ht, by simp [hterm]⟩

theorem skipIf_raisesExactly (c : Bool) (s : State) : RaisesExactly none s (skipIf c s) := by
  cases c <;> exact raisesExactly_none rfl rfl

theorem withAddrs_raisesExactly (op : Word) (count : Nat) {body : State → State} {s : State}
    (hterm : (body s).terminate = s.terminate) (hdiag : (body s).diag = s.diag) :
    RaisesExactly (boundsFatal op s count) s (withAddrs op s.base count body s) := by
  by_cases hbad : 0 < count ∧ s.I.toNat + count > 4096
  · rw [boundsFatal, if_pos hbad]
    exact withAddrs_bad hbad.1 hbad.2
  · rw [boundsFatal, if_neg hbad, withAddrs_ok (by simp only [State.base]; omega)]
    exact raisesExactly_none hterm hdiag

theorem withKey_raisesExactly (op : Word) (x : Reg) (s : State) {k : Bool → Res}
    (hk : ∀ down, RaisesExactly none s (k down)) :
    RaisesExactly (if (s.getV x).toNat > 15 then some (.keyIndex op (s.getV x)) else none) s (withKey op x s k) := by
  by_cases hx : (s.getV x).toNat < 16
  · rw [if_neg (by omega), withKey, dif_pos hx]
    exact hk _
  · rw [if_pos (by omega), withKey, dif_neg hx]
    exact raisesExactly_some.2 rfl

theorem execRet_raisesExactly (s : State) :
    RaisesExactly (if s.sp.val = 0 then some (.stackUnderflow (encode .ret)) else none) s (execRet s) := by
  unfold execRet
  cases hp : popPc s with
  | none => simp [popPc_eq_none hp, raisesExactly_some]
  | some t =>
    obtain ⟨k, hk, hsp, rfl⟩ := popPc_eq_some hp
    rw [if_neg (by omega)]
    exact raisesExactly_none rfl rfl

theorem execCall_raisesExactly (nnn : Addr12) (s : State) :
    RaisesExactly (if s.sp.val = 16 then some (.stackOverflow (encode (.call nnn))) else none) s (execCall nnn s) := by
  unfold execCall
  cases hp : pushPc s with
  | none => simp [pushPc_eq_none hp, raisesExactly_some]
  | some t =>
    obtain ⟨hsp, rfl⟩ := pushPc_eq_some hp
    rw [if_neg (by omega)]
    exact raisesExactly_none rfl rfl

theorem execLdVxK_raisesExactly (x : Reg) (s : State) : RaisesExactly none s (execLdVxK x s) := by
  unfold execLdVxK
  cases s.lowestKey <;> exact raisesExactly_none rfl rfl

/-- Executing an instruction raises exactly the condition the table of fatal kinds gives it (60_exceptions.md R111). -/
theorem exec_raisesExactly (i : Instr) (s : State) : RaisesExactly (instrFatal (encode i) i s) s (exec i s) := by
  cases i with
  | ret => exact execRet_raisesExactly s
  | call nnn => exact execCall_raisesExactly nnn s
  | seImm | sneImm | seReg | sneReg => exact skipIf_raisesExactly _ s
  | skp x => exact withKey_raisesExactly _ x s fun down => skipIf_raisesExactly down s
  | sknp x => exact withKey_raisesExactly _ x s fun down => skipIf_raisesExactly (!down) s
  | drw x y n => exact withAddrs_raisesExactly _ (visibleRows n (startRow (s.getV y))) rfl rfl
  | ldBVx => exact withAddrs_raisesExactly _ 3 rfl rfl
  | ldMemVx x => exact withAddrs_raisesExactly _ (x.val + 1) rfl rfl
  | ldVxMem x =>
    exact withAddrs_raisesExactly _ (x.val + 1) (body := fun s => loadBlock s x s.base)
      (loadBlock_terminate s x s.base) (loadBlock_diag s x s.base)
  | ldVxK x => exact execLdVxK_raisesExactly x s
  | cls | sys | jp | jpV0 | ldI | addIVx | ldFVx => exact raisesExactly_none rfl rfl
  | ldImm | addImm | ldReg | orReg | andReg | xorReg | rnd => exact raisesExactly_none rfl rfl
  | addReg | sub | shr | subn | shl => exact raisesExactly_none rfl rfl
  | ldVxDT | ldDTVx | ldSTVx => exact raisesExactly_none rfl rfl

/-! #### The fatal condition a cycle meets -/

theorem expectedFatal_fetchFault {s : State} (h : s.pc.toNat ≥ 4095) : expectedFatal s = some (.fetchBounds s.pc) := by
  rw [expectedFatal, if_pos h]

theorem fetchWord_eq_some {s : State} {op : Word} :
    fetchWord s = some op ↔
      s.pc.toNat < 4095 ∧ wordOfBytes (s.mem.read s.pc.toNat) (s.mem.read (s.pc.toNat + 1)) = op := by
  by_cases hpc : s.pc.toNat < 4095
  · simp [fetchWord_of_lt hpc, hpc]
  · simp [fetchWord_of_ge (Nat.not_lt.1 hpc), hpc]

theorem expectedFatal_unknown {s : State} {op w : Word} (hf : fetchWord s = some op) (hd : decode op = .unknown w) :
    expectedFatal s = some (.unknownOpcode op) := by
  obtain ⟨hpc, rfl⟩ := fetchWord_eq_some.1 hf
  simp [expectedFatal, hd, Nat.not_le.2 hpc]

theorem expectedFatal_instr {s : State} {op : Word} {i : Instr} (hf : fetchWord s = some op)
    (hd : decode op = .instr i) : expectedFatal s = instrFatal op i s := by
  obtain ⟨hpc, rfl⟩ := fetchWord_eq_some.1 hf
  simp [expectedFatal, hd, Nat.not_le.2 hpc]

/-- Clearing the outputs and advancing pc touch nothing that a fatal condition depends on. -/
theorem instrFatal_advanced (op : Word) (i : Instr) (s : State) :
    instrFatal op i (clearOutputs s).advancePc = instrFatal op i s := by
  cases i <;> rfl

theorem boundsFatal_isSome (op : Word) (s : State) (count : Nat) :
    (boundsFatal op s count).isSome = decide (0 < count ∧ s.I.toNat + count > 4096) := by
  unfold boundsFatal
  split <;> simp [*]

/-- The word is recorded with a condition; it does not decide whether there is one. -/
theorem instrFatal_isSome_congr (op op' : Word) (i : Instr) (s : State) :
    (instrFatal op i s).isSome = (instrFatal op' i s).isSome := by
  cases i with
  | drw | ldBVx | ldMemVx | ldVxMem => simp only [instrFatal, boundsFatal_isSome]
  | call | ret | skp | sknp => simp only [instrFatal]; split <;> rfl
  | _ => rfl

theorem step_terminate (s : State) :
    ∃ t, step s = .next t ∧ t.terminate = (s.terminate || (expectedFatal s).isSome) := by
  cases hf : fetchWord s with
  | none =>
    have hpc := fetchWord_eq_none.1 hf
    exact ⟨_, step_fetchFault hpc, by simp [expectedFatal_fetchFault hpc]⟩
  | some op =>
    cases hd : decode op with
    | unknown w => exact ⟨_, step_unknown hf hd, by simp [expectedFatal_unknown hf hd]⟩
    | instr i =>
      obtain ⟨u, hu, hterm⟩ := (exec_raisesExactly i (clearOutputs s).advancePc).exists_next
      refine ⟨timerTick u, by rw [step_instr (nextInstr_eq_some.2 ⟨op, hf, hd⟩), hu, thenTick], ?_⟩
      rw [timerTick_terminate, hterm, instrFatal_advanced, instrFatal_isSome_congr _ op, expectedFatal_instr hf hd]
      rfl

theorem cycleOp_of_step {s t : State} (h : step s = .next t) : cycleOp s = (t, .outputs t.tone t.diag) := by
  rw [cycleOp, h]

theorem load_terminate (b : Option (List Byte)) (s : State) : (load b s).1.terminate = s.terminate := by
  cases b with
  | none => rfl
  | some bytes => simp only [load]; split <;> rfl

/-! #### No cycle reads `terminate` -/

/-- The state with `terminate` raised. -/
def State.raised (s : State) : State := { s with terminate := true }

theorem withAddrs_raised {op : Word} {base count : Nat} {body : State → State} {s t : State}
    (hbody : body s.raised = (body s).raised) (h : withAddrs op base count body s = .next t) :
    withAddrs op base count body s.raised = .next t.raised := by
  obtain ⟨h0, hbad, rfl⟩ | ⟨hok, rfl⟩ := withAddrs_cases h
  · exact withAddrs_bad h0 hbad
  · rw [withAddrs_ok hok, hbody]

theorem skipIf_raised {c : Bool} {s t : State} (h : skipIf c s = .next t) : skipIf c s.raised = .next t.raised := by
  obtain ⟨rfl, rfl⟩ | ⟨rfl, rfl⟩ := skipIf_cases h <;> rfl

theorem withKey_skipIf_raised {op : Word} {x : Reg} {c : Bool → Bool} {s t : State}
    (h : withKey op x s (fun down => skipIf (c down) s) = .next t) :
    withKey op x s.raised (fun down => skipIf (c down) s.raised) = .next t.raised := by
  obtain ⟨hx, hskip⟩ | ⟨hx, rfl⟩ := withKey_cases h
  · exact (dif_pos hx).trans (skipIf_raised hskip)
  · exact dif_neg (Nat.not_lt.2 hx)

theorem popPc_raised (s : State) : popPc s.raised = (popPc s).map State.raised := by
  unfold popPc
  rw [apply_dite (Option.map State.raised)]
  rfl

theorem pushPc_raised (s : State) : pushPc s.raised = (pushPc s).map State.raised := by
  unfold pushPc
  rw [apply_dite (Option.map State.raised)]
  rfl

theorem execRet_raised {s t : State} (h : execRet s = .next t) : execRet s.raised = .next t.raised := by
  unfold execRet at h ⊢
  rw [popPc_raised]
  cases hp : popPc s <;> rw [hp] at h <;> obtain rfl := Host.Outcome.next.inj h <;> rfl

theorem execCall_raised {nnn : Addr12} {s t : State} (h : execCall nnn s = .next t) :
    execCall nnn s.raised = .next t.raised := by
  unfold execCall at h ⊢
  rw [pushPc_raised]
  cases hp : pushPc s <;> rw [hp] at h <;> obtain rfl := Host.Outcome.next.inj h <;> rfl

theorem loadBlock_raised (s : State) (x : Reg) (a : Nat) : loadBlock s.raised x a = (loadBlock s x a).raised := by
  unfold loadBlock
  rfl

theorem execLdVxK_raised {x : Reg} {s t : State} (h : execLdVxK x s = .next t) :
    execLdVxK x s.raised = .next t.raised := by
  have hkey : s.raised.lowestKey = s.lowestKey := rfl
  unfold execLdVxK at h ⊢
  rw [hkey]
  cases hk : s.lowestKey <;> rw [hk] at h <;> obtain rfl := Host.Outcome.next.inj h <;> rfl

/-- An instruction does from a state with `terminate` raised what it does from the state as it was, and `terminate` stays
raised (10_state.md R26). -/
theorem exec_raised {i : Instr} {s t : State} (h : exec i s = .next t) : exec i s.raised = .next t.raised := by
  cases i with
  | ret => exact execRet_raised h
  | call => exact execCall_raised h
  | seImm | sneImm | seReg | sneReg => exact skipIf_raised h
  | skp => exact withKey_skipIf_raised (c := id) h
  | sknp => exact withKey_skipIf_raised (c := not) h
  | drw | ldBVx | ldMemVx => exact withAddrs_raised rfl h
  | ldVxMem x => exact withAddrs_raised (body := fun s => loadBlock s x s.base) (loadBlock_raised s x s.base) h
  | ldVxK => exact execLdVxK_raised h
  | cls | sys | jp | jpV0 | ldI | addIVx | ldFVx => obtain rfl := Host.Outcome.next.inj h; rfl
  | ldImm | addImm | ldReg | orReg | andReg | xorReg | rnd => obtain rfl := Host.Outcome.next.inj h; rfl
  | addReg | sub | shr | subn | shl => obtain rfl := Host.Outcome.next.inj h; rfl
  | ldVxDT | ldDTVx | ldSTVx => obtain rfl := Host.Outcome.next.inj h; rfl

theorem step_raised {s t : State} (h : step s = .next t) : step s.raised = .next t.raised := by
  obtain ⟨hpc, rfl⟩ | ⟨op, w, hf, hd, rfl⟩ | ⟨i, u, hi, hu, rfl⟩ := step_cases h
  · exact step_fetchFault hpc
  · exact step_unknown hf hd
  · have hexec : exec i (clearOutputs s.raised).advancePc = .next u.raised := exec_raised hu
    rw [step_instr (show nextInstr s.raised = some i from hi), hexec]
    rfl

/-- Settles O14: by cases on the host operation, the cycle's being that of `step_terminate`; and by the three cases of a
step, none of which reads `terminate`. -/
theorem terminateIsStickyAndNotRead : Obligations.TerminateIsStickyAndNotRead := by
  refine ⟨fun o s => ?_, fun _ _ h => step_raised h⟩
  cases o with
  | cycle =>
    obtain ⟨t, ht, hterm⟩ := step_terminate s
    rw [hostStep, cycleOp_of_step ht]
    exact hterm
  | load b => exact load_terminate b s
  | initialise | setKey | readPixel | readDraw | readTerminate => rfl

end Sys2Proof.Machine

/-! ### The opcode map: its rows decide every word (30_encoding.md R54) -/

namespace Sys2Proof

open Laws.EncodesRow (mask_packNNN mask_packXKK_low mask_packXYN_ends)

theorem rowAccepts_iff {r : OpcodeRow} {op : Word} :
    rowAccepts r op = true ↔ op &&& r.mask = r.pattern ∧ op ∉ r.excludes := by
  simp [rowAccepts]

theorem rowOf_mem_opcodeRows (i : Instr) : rowOf i ∈ opcodeRows := by
  cases i <;> simp [opcodeRows, sampleOfEachRow, rowOf]

/-! #### A word that a row accepts has the pattern's fields, so it decodes into that row -/

section accepted

variable {r : OpcodeRow} {op : Word} (h : rowAccepts r op = true)
include h

/-- An accepted word agrees with the pattern on every run of bits that the mask covers. -/
theorem extractLsb'_of_rowAccepts {start len : Nat} (hm : r.mask.extractLsb' start len = BitVec.allOnes len) :
    op.extractLsb' start len = r.pattern.extractLsb' start len := by
  rw [← (rowAccepts_iff.1 h).1, BitVec.extractLsb'_and, hm, BitVec.and_allOnes]

theorem fieldG_of_rowAccepts (hm : r.mask.extractLsb' 12 4 = BitVec.allOnes 4) : fieldG op = fieldG r.pattern :=
  congrArg BitVec.toNat (extractLsb'_of_rowAccepts h hm)

theorem fieldN_of_rowAccepts (hm : r.mask.extractLsb' 0 4 = BitVec.allOnes 4) : fieldN op = fieldN r.pattern :=
  congrArg BitVec.toFin (extractLsb'_of_rowAccepts h hm)

theorem fieldKK_of_rowAccepts (hm : r.mask.extractLsb' 0 8 = BitVec.allOnes 8) : fieldKK op = fieldKK r.pattern :=
  extractLsb'_of_rowAccepts h hm

theorem eq_pattern_of_rowAccepts (hm : r.mask = BitVec.allOnes 16) : op = r.pattern := by
  rw [← (rowAccepts_iff.1 h).1, hm, BitVec.and_allOnes]

end accepted

/-- R54, for a word under a row: the decoder answers an instruction of that row. The masks fix field g alone, fields g and n
(groups 5, 8 and 9), fields g and kk (groups E and F) or the whole word (CLS and RET), and the decoder tests just these. -/
theorem decode_of_rowAccepts (i : Instr) {op : Word} (h : rowAccepts (rowOf i) op = true) :
    ∃ j, decode op = .instr j ∧ rowOf j = rowOf i := by
  cases i
  all_goals dsimp only [rowOf] at h ⊢
  case cls | ret =>
    obtain rfl := eq_pattern_of_rowAccepts h rfl
    exact ⟨_, rfl, rfl⟩
  case sys nnn =>
    have hne : op ≠ 0x00E0#16 ∧ op ≠ 0x00EE#16 := by simpa using (rowAccepts_iff.1 h).2
    refine ⟨.sys (fieldNNN op), ?_, rfl⟩
    rw [decode, fieldG_of_rowAccepts h rfl]
    exact (if_neg hne.1).trans (if_neg hne.2)
  case jp | call | ldI | jpV0 | seImm | sneImm | ldImm | addImm | rnd | drw =>
    rw [decode, fieldG_of_rowAccepts h rfl]
    exact ⟨_, rfl, rfl⟩
  case seReg | sneReg =>
    rw [decode, fieldG_of_rowAccepts h rfl, fieldN_of_rowAccepts h rfl]
    exact ⟨_, rfl, rfl⟩
  case ldReg | orReg | andReg | xorReg | addReg | sub | shr | subn | shl =>
    rw [decode, fieldG_of_rowAccepts h rfl, decodeGroup8, fieldN_of_rowAccepts h rfl]
    exact ⟨_, rfl, rfl⟩
  case skp | sknp =>
    rw [decode, fieldG_of_rowAccepts h rfl, decodeGroupE, fieldKK_of_rowAccepts h rfl]
    exact ⟨_, rfl, rfl⟩
  case ldVxDT | ldVxK | ldDTVx | ldSTVx | addIVx | ldFVx | ldBVx | ldMemVx | ldVxMem =>
    rw [decode, fieldG_of_rowAccepts h rfl, decodeGroupF, fieldKK_of_rowAccepts h rfl]
    exact ⟨_, rfl, rfl⟩

/-! #### A word that decodes to an instruction falls under that instruction's row -/

theorem packNNN_fields {op : Word} {g : Nat} (hg : fieldG op = g) : packNNN (BitVec.ofNat 4 g) (fieldNNN op) = op := by
  apply BitVec.eq_of_toNat_eq
  rw [fieldG_eq] at hg
  rw [packNNN_toNat, fieldNNN_toNat, BitVec.toNat_ofNat]
  omega

theorem packXYN_fields {op : Word} {g : Nat} (hg : fieldG op = g) :
    packXYN (BitVec.ofNat 4 g) (fieldX op) (fieldY op) (fieldN op) = op := by
  apply BitVec.eq_of_toNat_eq
  rw [fieldG_eq] at hg
  rw [packXYN_toNat, fieldX_val, fieldY_val, fieldN_val, BitVec.toNat_ofNat]
  omega

theorem packXKK_fields {op : Word} {g : Nat} (hg : fieldG op = g) :
    packXKK (BitVec.ofNat 4 g) (fieldX op) (fieldKK op) = op := by
  apply BitVec.eq_of_toNat_eq
  rw [fieldG_eq] at hg
  rw [packXKK_toNat, fieldX_val, fieldKK_toNat, BitVec.toNat_ofNat]
  omega

section fields

variable {op : Word} {g : Nat} (hg : fieldG op = g)
include hg

theorem mask_F000_of_fieldG : op &&& 0xF000#16 = packNNN (BitVec.ofNat 4 g) 0 := by
  rw [← mask_packNNN _ (fieldNNN op), packNNN_fields hg]

theorem rowAccepts_of_fieldG : rowAccepts ⟨packNNN (BitVec.ofNat 4 g) 0, 0xF000#16, []⟩ op = true :=
  rowAccepts_iff.2 ⟨mask_F000_of_fieldG hg, List.not_mem_nil⟩

theorem rowAccepts_of_fieldG_fieldN {n : Nat} (hn : (fieldN op).val = n) :
    rowAccepts ⟨packXYN (BitVec.ofNat 4 g) 0 0 (Fin.ofNat 16 n), 0xF00F#16, []⟩ op = true := by
  refine rowAccepts_iff.2 ⟨?_, List.not_mem_nil⟩
  rw [← hn, Fin.ofNat_val_eq_self, ← mask_packXYN_ends _ (fieldX op) (fieldY op), packXYN_fields hg]

theorem rowAccepts_of_fieldG_fieldKK {kk : Nat} (hkk : (fieldKK op).toNat = kk) :
    rowAccepts ⟨packXKK (BitVec.ofNat 4 g) 0 (BitVec.ofNat 8 kk), 0xF0FF#16, []⟩ op = true := by
  refine rowAccepts_iff.2 ⟨?_, List.not_mem_nil⟩
  rw [← hkk, BitVec.ofNat_toNat, BitVec.setWidth_eq, ← mask_packXKK_low _ (fieldX op), packXKK_fields hg]

end fields

/-- What the decoder's answer says of the word: it falls under the row of the instruction answered, or it is the word that
`Unknown` carries. -/
def Decoded.Describes (op : Word) : Decoded → Prop
  | .instr i => rowAccepts (rowOf i) op = true
  | .unknown w => w = op

theorem decodeGroup0_describes {op : Word} (hg : fieldG op = 0x0) : (decodeGroup0 op).Describes op := by
  unfold decodeGroup0
  split
  next h => subst h; exact rowAccepts_iff.2 ⟨rfl, List.not_mem_nil⟩
  next hcls =>
    split
    next h => subst h; exact rowAccepts_iff.2 ⟨rfl, List.not_mem_nil⟩
    next hret => exact rowAccepts_iff.2 ⟨mask_F000_of_fieldG hg, by simp [rowOf, hcls, hret]⟩

theorem decodeGroup8_describes {op : Word} (hg : fieldG op = 0x8) : (decodeGroup8 op).Describes op := by
  unfold decodeGroup8
  split
  case h_10 => rfl
  all_goals next hn => exact rowAccepts_of_fieldG_fieldN hg hn

theorem decodeGroupE_describes {op : Word} (hg : fieldG op = 0xE) : (decodeGroupE op).Describes op := by
  unfold decodeGroupE
  split
  case h_3 => rfl
  all_goals next hkk => exact rowAccepts_of_fieldG_fieldKK hg hkk

theorem decodeGroupF_describes {op : Word} (hg : fieldG op = 0xF) : (decodeGroupF op).Describes op := by
  unfold decodeGroupF
  split
  case h_10 => rfl
  all_goals next hkk => exact rowAccepts_of_fieldG_fieldKK hg hkk

/-- Arm k of the decoder's match is the group of the opcodes with field g = k - 1; each group hands on its own value of g. -/
theorem decode_describes (op : Word) : (decode op).Describes op := by
  unfold decode
  split
  case h_1 hg => exact decodeGroup0_describes hg
  case h_9 hg => exact decodeGroup8_describes hg
  case h_15 hg => exact decodeGroupE_describes hg
  case h_16 hg => exact decodeGroupF_describes hg
  case h_17 => rfl
  case h_6 hg | h_10 hg =>
    split
    next hn => exact rowAccepts_of_fieldG_fieldN hg hn
    next => rfl
  all_goals next hg => exact rowAccepts_of_fieldG hg

theorem rowAccepts_of_decode {op : Word} {i : Instr} (hd : decode op = .instr i) : rowAccepts (rowOf i) op = true := by
  have h := decode_describes op
  rw [hd] at h
  exact h

theorem eq_of_decode_unknown {op w : Word} (hd : decode op = .unknown w) : w = op := by
  have h := decode_describes op
  rw [hd] at h
  exact h

/-- Settles O3: a row that accepts the word fixes the fields that the decoder tests, and the decoder answers an instruction
only for a word under that instruction's row. -/
theorem opcodeMapDecidesEveryWord : Obligations.OpcodeMapDecidesEveryWord := by
  refine ⟨rfl, fun op => ⟨fun r hr hacc => ?_, fun hnone => ?_⟩⟩
  · obtain ⟨i, -, rfl⟩ := List.mem_map.1 hr
    exact decode_of_rowAccepts i hacc
  · cases hd : decode op with
    | instr i => exact absurd (rowAccepts_of_decode hd) (by simp [hnone _ (rowOf_mem_opcodeRows i)])
    | unknown w => rw [eq_of_decode_unknown hd]

end Sys2Proof

/-! ### Control flow: SYS, JP and the skips (41_control.md R73, R75, R77 to R80) -/

namespace Sys2Proof

/-! #### What the groups 0, 1, 3, 4, 5 and 9 decode to (30_encoding.md R51, R54 to R56) -/

theorem packNNN_right_inj {g : BitVec 4} {a b : Addr12} : packNNN g a = packNNN g b ↔ a = b :=
  ⟨fun h => by rw [← fieldNNN_packNNN g a, h, fieldNNN_packNNN], congrArg (packNNN g)⟩

/-- Of the words of group 0 only 00E0 and 00EE are not SYS (R55). -/
theorem decode_packNNN_sys {nnn : Addr12} (hcls : nnn ≠ 0x0E0#12) (hret : nnn ≠ 0x0EE#12) :
    decode (packNNN 0x0#4 nnn) = .instr (.sys nnn) := by
  have hcls' : packNNN 0x0#4 nnn ≠ 0x00E0#16 := fun h => hcls (packNNN_right_inj.1 h)
  have hret' : packNNN 0x0#4 nnn ≠ 0x00EE#16 := fun h => hret (packNNN_right_inj.1 h)
  simp [decode, decodeGroup0, hcls', hret']

theorem decode_packNNN_jp (nnn : Addr12) : decode (packNNN 0x1#4 nnn) = .instr (.jp nnn) := by
  simp [decode]

theorem decode_packXKK_seImm (x : Reg) (kk : Byte) : decode (packXKK 0x3#4 x kk) = .instr (.seImm x kk) := by
  simp [decode]

theorem decode_packXKK_sneImm (x : Reg) (kk : Byte) : decode (packXKK 0x4#4 x kk) = .instr (.sneImm x kk) := by
  simp [decode]

/-- Group 5 holds an instruction for the low nibble 0 only (R56). -/
theorem decode_packXYN_group5 (x y : Reg) (n : Fin 16) :
    decode (packXYN 0x5#4 x y n) = if n = 0 then .instr (.seReg x y) else .unknown (packXYN 0x5#4 x y n) := by
  simp [decode]

/-- Group 9 holds an instruction for the low nibble 0 only (R56). -/
theorem decode_packXYN_group9 (x y : Reg) (n : Fin 16) :
    decode (packXYN 0x9#4 x y n) = if n = 0 then .instr (.sneReg x y) else .unknown (packXYN 0x9#4 x y n) := by
  simp [decode]

end Sys2Proof

namespace Sys2Proof.Machine

open Sys2Proof

/-! #### A skip on a comparison of two bytes -/

theorem skipIf_beq (a b : Byte) (s : State) :
    skipIf (a == b) s = .next (if a = b then { s with pc := s.pc + 2 } else s) := by
  by_cases h : a = b <;> simp [skipIf, State.advancePc, h]

theorem skipIf_bne (a b : Byte) (s : State) :
    skipIf (a != b) s = .next (if a = b then s else { s with pc := s.pc + 2 }) := by
  by_cases h : a = b <;> simp [skipIf, State.advancePc, h]

/-- Settles O15: the words of groups 0 and 1 decode by format NNN, and each meaning is one write of pc or none. -/
theorem sysDoesNothingAndJpJumps : Obligations.SysDoesNothingAndJpJumps :=
  ⟨fun _ => decode_packNNN_sys, decode_packNNN_jp, fun _ _ => ⟨rfl, rfl⟩⟩

/-- Settles O19: the words decode by format XKK, and each meaning is a skip on the comparison of Vx with kk. -/
theorem skipsCompareWithAnImmediate : Obligations.SkipsCompareWithAnImmediate :=
  ⟨fun x kk => ⟨decode_packXKK_seImm x kk, decode_packXKK_sneImm x kk⟩,
    fun x kk s => ⟨skipIf_beq (s.getV x) kk s, skipIf_bne (s.getV x) kk s⟩⟩

/-- Settles O20: the words decode by format XYN, the low nibble deciding between an instruction and `Unknown`; each
meaning is a skip on the comparison of Vx with Vy. -/
theorem skipsCompareTwoRegisters : Obligations.SkipsCompareTwoRegisters := by
  refine ⟨fun x y => ⟨decode_packXYN_group5 x y 0, decode_packXYN_group9 x y 0⟩, fun x y n hn => ?_, fun x y s =>
    ⟨skipIf_beq (s.getV x) (s.getV y) s, skipIf_bne (s.getV x) (s.getV y) s⟩⟩
  have hlow : n.toFin ≠ 0 := fun h => hn (BitVec.eq_of_toFin_eq h)
  exact ⟨(decode_packXYN_group5 x y n.toFin).trans (if_neg hlow),
    (decode_packXYN_group9 x y n.toFin).trans (if_neg hlow)⟩

end Sys2Proof.Machine

/-! ### Register loads, sum with an immediate, copy and logic (42_alu.md R83 to R88) -/

namespace Sys2Proof

/-! #### What the groups 6, 7 and 8 decode to (30_encoding.md R54, R57) -/

theorem decode_packXKK_ldImm (x : Reg) (kk : Byte) : decode (packXKK 0x6#4 x kk) = .instr (.ldImm x kk) := by
  simp [decode]

theorem decode_packXKK_addImm (x : Reg) (kk : Byte) : decode (packXKK 0x7#4 x kk) = .instr (.addImm x kk) := by
  simp [decode]

/-- Group 8 hands its words to the dispatch on the low nibble (R57). -/
theorem decode_packXYN_group8 (x y : Reg) (n : Fin 16) :
    decode (packXYN 0x8#4 x y n) = decodeGroup8 (packXYN 0x8#4 x y n) := by
  simp [decode]

theorem decode_packXYN_ldReg (x y : Reg) : decode (packXYN 0x8#4 x y 0x0) = .instr (.ldReg x y) := by
  simp [decode_packXYN_group8, decodeGroup8]

theorem decode_packXYN_orReg (x y : Reg) : decode (packXYN 0x8#4 x y 0x1) = .instr (.orReg x y) := by
  simp [decode_packXYN_group8, decodeGroup8]

theorem decode_packXYN_andReg (x y : Reg) : decode (packXYN 0x8#4 x y 0x2) = .instr (.andReg x y) := by
  simp [decode_packXYN_group8, decodeGroup8]

theorem decode_packXYN_xorReg (x y : Reg) : decode (packXYN 0x8#4 x y 0x3) = .instr (.xorReg x y) := by
  simp [decode_packXYN_group8, decodeGroup8]

/-- The sum of two bytes is their integer sum modulo 256 (42_alu.md R82). -/
theorem byte_add_eq_ofNat_mod (a b : Byte) : a + b = BitVec.ofNat 8 ((a.toNat + b.toNat) % 256) :=
  BitVec.eq_of_toNat_eq (by simp)

end Sys2Proof

namespace Sys2Proof.Machine

open Sys2Proof

/-! #### Each meaning is one register write, and a write of VF only for x = F -/

theorem exec_ldImm (x : Reg) (kk : Byte) (s : State) : exec (.ldImm x kk) s = .next (s.setV x kk) := rfl

theorem exec_addImm (x : Reg) (kk : Byte) (s : State) :
    exec (.addImm x kk) s = .next (s.setV x (BitVec.ofNat 8 (((s.getV x).toNat + kk.toNat) % 256))) := by
  rw [← byte_add_eq_ofNat_mod]
  rfl

theorem exec_ldReg (x y : Reg) (s : State) : exec (.ldReg x y) s = .next (s.setV x (s.getV y)) := rfl

theorem exec_orReg (x y : Reg) (s : State) : exec (.orReg x y) s = .next (s.setV x (s.getV x ||| s.getV y)) := rfl

theorem exec_andReg (x y : Reg) (s : State) : exec (.andReg x y) s = .next (s.setV x (s.getV x &&& s.getV y)) := rfl

theorem exec_xorReg (x y : Reg) (s : State) : exec (.xorReg x y) s = .next (s.setV x (s.getV x ^^^ s.getV y)) := rfl

/-- Settles O22: the words decode by format XKK, and each meaning is one write of Vx; a sum of bytes is the integer sum
modulo 256. -/
theorem immediateLoadAndAdd : Obligations.ImmediateLoadAndAdd :=
  ⟨fun x kk => ⟨decode_packXKK_ldImm x kk, decode_packXKK_addImm x kk⟩,
    fun x kk s => ⟨exec_ldImm x kk s, exec_addImm x kk s⟩⟩

/-- Settles O23: the words decode by format XYN, the low nibble choosing the instruction; each meaning is one write of
Vx. -/
theorem copyAndLogic : Obligations.CopyAndLogic :=
  ⟨fun x y => ⟨decode_packXYN_ldReg x y, decode_packXYN_orReg x y, decode_packXYN_andReg x y,
      decode_packXYN_xorReg x y⟩,
    fun x y s => ⟨exec_ldReg x y s, exec_orReg x y s, exec_andReg x y s, exec_xorReg x y s⟩⟩

end Sys2Proof.Machine

/-! ### Load of the index register (43_index_memory.md R95) -/

namespace Sys2Proof

theorem decode_packNNN_ldI (nnn : Addr12) : decode (packNNN 0xA#4 nnn) = .instr (.ldI nnn) := by
  simp [decode]

end Sys2Proof

namespace Sys2Proof.Machine

open Sys2Proof

theorem exec_ldI (nnn : Addr12) (s : State) : exec (.ldI nnn) s = .next { s with I := nnn.setWidth 16 } := rfl

/-- Settles O30: the words of group A decode by format NNN, and the meaning is the one write of I. -/
theorem loadIndexImmediate : Obligations.LoadIndexImmediate :=
  ⟨decode_packNNN_ldI, exec_ldI⟩

end Sys2Proof.Machine

/-! ### Clearing the display (44_display.md R102) -/

namespace Sys2Proof

/-- Group 0 holds the word of CLS as an exact word (30_encoding.md R55). -/
theorem decode_clsWord : decode 0x00E0#16 = .instr .cls := by decide

end Sys2Proof

namespace Sys2Proof.Machine

open Sys2Proof

theorem exec_cls (s : State) :
    exec .cls s = .next { s with fb := Vector.replicate 2048 false, drawPending := true } := rfl

/-- Settles O37: the word decodes in group 0, and the meaning is one write of the framebuffer, with every pixel 0, and of
draw_pending. -/
theorem clsClearsTheFramebuffer : Obligations.ClsClearsTheFramebuffer :=
  ⟨decode_clsWord, fun s => ⟨_, exec_cls s, fun _ hp => by simp [hp], rfl, rfl⟩⟩

end Sys2Proof.Machine

/-! ### Reading the delay timer and waiting for a key (45_input_timers.md R106, R107) -/

namespace Sys2Proof

/-! #### What the words of group F decode to (30_encoding.md R54, R59) -/

/-- Group F hands its words to the dispatch on the low byte (R59). -/
theorem decode_packXKK_groupF (x : Reg) (kk : Byte) :
    decode (packXKK 0xF#4 x kk) = decodeGroupF (packXKK 0xF#4 x kk) := by
  simp [decode]

theorem decode_packXKK_ldVxDT (x : Reg) : decode (packXKK 0xF#4 x 0x07#8) = .instr (.ldVxDT x) := by
  simp [decode_packXKK_groupF, decodeGroupF]

theorem decode_packXKK_ldVxK (x : Reg) : decode (packXKK 0xF#4 x 0x0A#8) = .instr (.ldVxK x) := by
  simp [decode_packXKK_groupF, decodeGroupF]

end Sys2Proof

namespace Sys2Proof.Machine

open Sys2Proof

theorem exec_ldVxDT (x : Reg) (s : State) : exec (.ldVxDT x) s = .next (s.setV x s.DT) := rfl

theorem exec_ldVxK_of_lowestKey_some {x k : Reg} {s : State} (h : s.lowestKey = some k) :
    exec (.ldVxK x) s = .next (s.setV x (BitVec.ofNat 8 k.val)) := by
  rw [exec, execLdVxK, h]

theorem exec_ldVxK_of_lowestKey_none {x : Reg} {s : State} (h : s.lowestKey = none) :
    exec (.ldVxK x) s = .next (s.setPc (s.pc - 2)) := by
  rw [exec, execLdVxK, h]

/-- Setting pc back by 2, modulo 65536, undoes the advance of the cycle (40_cycle.md R66). -/
theorem advancePc_setPc_sub_two (s : State) : s.advancePc.setPc (s.advancePc.pc - 2) = s := by
  rw [advancePc_pc, BitVec.add_sub_cancel]
  rfl

/-- The tick of a cycle that reads DT comes after the read and leaves Vx alone (40_cycle.md R69). -/
theorem step_ldVxDT {x : Reg} {s : State} (h : nextInstr s = some (.ldVxDT x)) :
    step s = .next (timerTick ((clearOutputs s).advancePc.setV x s.DT)) := by
  rw [step_instr h, exec_ldVxDT]
  rfl

/-- A waiting state's cycle advances pc, sets it back, and ticks (70_reset_and_hazards.md R144). -/
theorem step_of_waiting {s : State} (h : Waiting s) : step s = .next (timerTick (clearOutputs s)) := by
  obtain ⟨x, hnext, hkeys⟩ := h
  have hnone : (clearOutputs s).advancePc.lowestKey = none := lowestKey_eq_none.2 hkeys
  rw [step_instr hnext, exec_ldVxK_of_lowestKey_none hnone, advancePc_setPc_sub_two]
  rfl

/-- Settles O42: the words decode by format X; the two meanings are the two answers of the search for the lowest key down,
and for a waiting state the second one undoes the advance of pc. -/
theorem keyWaitLoadsOrRepeats : Obligations.KeyWaitLoadsOrRepeats :=
  ⟨decode_packXKK_ldVxK,
    fun _ _ =>
      ⟨fun _ hdown hbelow => exec_ldVxK_of_lowestKey_some (lowestKey_eq_some.2 ⟨hdown, hbelow⟩),
        fun hup => exec_ldVxK_of_lowestKey_none (lowestKey_eq_none.2 hup)⟩,
    fun _ => step_of_waiting⟩

/-- Settles O41: the words decode by format X, the meaning is one write of Vx, and the tick of the cycle comes after it. -/
theorem readDelayTimer : Obligations.ReadDelayTimer := by
  refine ⟨decode_packXKK_ldVxDT, exec_ldVxDT, fun x s t hnext hstep => ?_⟩
  rw [step_ldVxDT hnext] at hstep
  obtain rfl := Host.Outcome.next.inj hstep
  rw [timerTick_getV, getV_setV_same]

end Sys2Proof.Machine

/-! ### What the host reads (60_exceptions.md R131 to R133) -/

namespace Sys2Proof.Machine

open Sys2Proof

theorem readPixel_of_lt (p : Fin 2048) (s : State) : readPixel p.val s = some s.fb[p.val] := by
  rw [readPixel, if_pos (Int.natCast_nonneg p.val), Int.toNat_natCast, Vector.getElem?_eq_getElem p.isLt]

theorem readPixel_of_neg {i : Int} (h : i < 0) (s : State) : readPixel i s = none := by
  rw [readPixel, if_neg (Int.not_le.2 h)]

theorem readPixel_of_gt {i : Int} (h : 2047 < i) (s : State) : readPixel i s = none := by
  have hbound : 2048 ≤ i.toNat := by omega
  rw [readPixel, if_pos (by omega), Vector.getElem?_eq_none hbound]

theorem readPixel_of_out_of_range {i : Int} (h : i < 0 ∨ 2047 < i) (s : State) : readPixel i s = none :=
  h.elim (readPixel_of_neg · s) (readPixel_of_gt · s)

theorem hostStep_readPixel (i : Int) (s : State) : hostStep (.readPixel i) s = (s, .pixel (readPixel i s)) := rfl

theorem hostStep_readDraw (s : State) :
    hostStep .readDraw s = ({ s with drawPending := false }, .flag s.drawPending) := rfl

theorem hostStep_readTerminate (s : State) : hostStep .readTerminate s = (s, .flag s.terminate) := rfl

/-- Settles O60: a pixel read splits on the two ends of the index range, and the second `readDraw` answers the flag the
first one lowered. -/
theorem hostReads : Obligations.HostReads := by
  intro s
  refine ⟨fun p => ?_, fun i hout => ?_, hostStep_readDraw s, ?_, hostStep_readTerminate s⟩
  · rw [hostStep_readPixel, readPixel_of_lt]
  · rw [hostStep_readPixel, readPixel_of_out_of_range hout]
  · rw [hostStep_readDraw s, hostStep_readDraw]

end Sys2Proof.Machine

/-! ### The encoder and the decoder undo each other (30_encoding.md, sections 1 and 2) -/

namespace Sys2Proof

/-! #### What the words of the remaining rows decode to (30_encoding.md R54, R57 to R59) -/

theorem decode_retWord : decode 0x00EE#16 = .instr .ret := by decide

theorem decode_packNNN_call (nnn : Addr12) : decode (packNNN 0x2#4 nnn) = .instr (.call nnn) := by
  simp [decode]

theorem decode_packNNN_jpV0 (nnn : Addr12) : decode (packNNN 0xB#4 nnn) = .instr (.jpV0 nnn) := by
  simp [decode]

theorem decode_packXKK_rnd (x : Reg) (kk : Byte) : decode (packXKK 0xC#4 x kk) = .instr (.rnd x kk) := by
  simp [decode]

theorem decode_packXYN_drw (x y : Reg) (n : RowCount) : decode (packXYN 0xD#4 x y n) = .instr (.drw x y n) := by
  simp [decode]

theorem decode_packXYN_addReg (x y : Reg) : decode (packXYN 0x8#4 x y 0x4) = .instr (.addReg x y) := by
  simp [decode_packXYN_group8, decodeGroup8]

theorem decode_packXYN_sub (x y : Reg) : decode (packXYN 0x8#4 x y 0x5) = .instr (.sub x y) := by
  simp [decode_packXYN_group8, decodeGroup8]

theorem decode_packXYN_shr (x y : Reg) : decode (packXYN 0x8#4 x y 0x6) = .instr (.shr x y) := by
  simp [decode_packXYN_group8, decodeGroup8]

theorem decode_packXYN_subn (x y : Reg) : decode (packXYN 0x8#4 x y 0x7) = .instr (.subn x y) := by
  simp [decode_packXYN_group8, decodeGroup8]

theorem decode_packXYN_shl (x y : Reg) : decode (packXYN 0x8#4 x y 0xE) = .instr (.shl x y) := by
  simp [decode_packXYN_group8, decodeGroup8]

/-- Group E hands its words to the dispatch on the low byte (R58). -/
theorem decode_packXKK_groupE (x : Reg) (kk : Byte) :
    decode (packXKK 0xE#4 x kk) = decodeGroupE (packXKK 0xE#4 x kk) := by
  simp [decode]

theorem decode_packXKK_skp (x : Reg) : decode (packXKK 0xE#4 x 0x9E#8) = .instr (.skp x) := by
  simp [decode_packXKK_groupE, decodeGroupE]

theorem decode_packXKK_sknp (x : Reg) : decode (packXKK 0xE#4 x 0xA1#8) = .instr (.sknp x) := by
  simp [decode_packXKK_groupE, decodeGroupE]

theorem decode_packXKK_ldDTVx (x : Reg) : decode (packXKK 0xF#4 x 0x15#8) = .instr (.ldDTVx x) := by
  simp [decode_packXKK_groupF, decodeGroupF]

theorem decode_packXKK_ldSTVx (x : Reg) : decode (packXKK 0xF#4 x 0x18#8) = .instr (.ldSTVx x) := by
  simp [decode_packXKK_groupF, decodeGroupF]

theorem decode_packXKK_addIVx (x : Reg) : decode (packXKK 0xF#4 x 0x1E#8) = .instr (.addIVx x) := by
  simp [decode_packXKK_groupF, decodeGroupF]

theorem decode_packXKK_ldFVx (x : Reg) : decode (packXKK 0xF#4 x 0x29#8) = .instr (.ldFVx x) := by
  simp [decode_packXKK_groupF, decodeGroupF]

theorem decode_packXKK_ldBVx (x : Reg) : decode (packXKK 0xF#4 x 0x33#8) = .instr (.ldBVx x) := by
  simp [decode_packXKK_groupF, decodeGroupF]

theorem decode_packXKK_ldMemVx (x : Reg) : decode (packXKK 0xF#4 x 0x55#8) = .instr (.ldMemVx x) := by
  simp [decode_packXKK_groupF, decodeGroupF]

theorem decode_packXKK_ldVxMem (x : Reg) : decode (packXKK 0xF#4 x 0x65#8) = .instr (.ldVxMem x) := by
  simp [decode_packXKK_groupF, decodeGroupF]

theorem sys_wf_iff {nnn : Addr12} : (Instr.sys nnn).wf = true ↔ nnn ≠ 0x0E0#12 ∧ nnn ≠ 0x0EE#12 := by
  simp [Instr.wf]

/-- Settles O1: by cases on the instruction, the word of each decoding by its format. -/
theorem decodeUndoesEncode : Obligations.DecodeUndoesEncode := by
  intro i hwf
  cases i with
  | cls => exact decode_clsWord
  | ret => exact decode_retWord
  | sys nnn =>
    obtain ⟨hcls, hret⟩ := sys_wf_iff.1 hwf
    exact decode_packNNN_sys hcls hret
  | jp nnn => exact decode_packNNN_jp nnn
  | call nnn => exact decode_packNNN_call nnn
  | seImm x kk => exact decode_packXKK_seImm x kk
  | sneImm x kk => exact decode_packXKK_sneImm x kk
  | seReg x y => exact decode_packXYN_group5 x y 0
  | ldImm x kk => exact decode_packXKK_ldImm x kk
  | addImm x kk => exact decode_packXKK_addImm x kk
  | ldReg x y => exact decode_packXYN_ldReg x y
  | orReg x y => exact decode_packXYN_orReg x y
  | andReg x y => exact decode_packXYN_andReg x y
  | xorReg x y => exact decode_packXYN_xorReg x y
  | addReg x y => exact decode_packXYN_addReg x y
  | sub x y => exact decode_packXYN_sub x y
  | shr x y => exact decode_packXYN_shr x y
  | subn x y => exact decode_packXYN_subn x y
  | shl x y => exact decode_packXYN_shl x y
  | sneReg x y => exact decode_packXYN_group9 x y 0
  | ldI nnn => exact decode_packNNN_ldI nnn
  | jpV0 nnn => exact decode_packNNN_jpV0 nnn
  | rnd x kk => exact decode_packXKK_rnd x kk
  | drw x y n => exact decode_packXYN_drw x y n
  | skp x => exact decode_packXKK_skp x
  | sknp x => exact decode_packXKK_sknp x
  | ldVxDT x => exact decode_packXKK_ldVxDT x
  | ldVxK x => exact decode_packXKK_ldVxK x
  | ldDTVx x => exact decode_packXKK_ldDTVx x
  | ldSTVx x => exact decode_packXKK_ldSTVx x
  | addIVx x => exact decode_packXKK_addIVx x
  | ldFVx x => exact decode_packXKK_ldFVx x
  | ldBVx x => exact decode_packXKK_ldBVx x
  | ldMemVx x => exact decode_packXKK_ldMemVx x
  | ldVxMem x => exact decode_packXKK_ldVxMem x

/-! #### The decoder's answer holds every bit of the word -/

/-- The decoder's answer loses nothing of the word: an instruction is well-formed and has the word as its encoding, and
`Unknown` carries the word. -/
def Decoded.Recovers (op : Word) : Decoded → Prop
  | .instr i => encode i = op ∧ i.wf = true
  | .unknown w => w = op

theorem packXYN_eq_of_fields {op : Word} {g n : Nat} (hg : fieldG op = g) (hn : (fieldN op).val = n) :
    packXYN (BitVec.ofNat 4 g) (fieldX op) (fieldY op) (Fin.ofNat 16 n) = op := by
  rw [← hn, Fin.ofNat_val_eq_self, packXYN_fields hg]

theorem packXKK_eq_of_fields {op : Word} {g kk : Nat} (hg : fieldG op = g) (hkk : (fieldKK op).toNat = kk) :
    packXKK (BitVec.ofNat 4 g) (fieldX op) (BitVec.ofNat 8 kk) = op := by
  rw [← hkk, BitVec.ofNat_toNat, BitVec.setWidth_eq, packXKK_fields hg]

theorem decodeGroup0_recovers {op : Word} (hg : fieldG op = 0x0) : (decodeGroup0 op).Recovers op := by
  have hpack : packNNN 0x0#4 (fieldNNN op) = op := packNNN_fields hg
  unfold decodeGroup0
  split
  next hcls => exact ⟨hcls.symm, rfl⟩
  next hcls =>
    split
    next hret => exact ⟨hret.symm, rfl⟩
    next hret =>
      refine ⟨hpack, sys_wf_iff.2 ⟨fun hn => hcls ?_, fun hn => hret ?_⟩⟩
      all_goals rw [← hpack, hn]; rfl

theorem decodeGroup8_recovers {op : Word} (hg : fieldG op = 0x8) : (decodeGroup8 op).Recovers op := by
  unfold decodeGroup8
  split
  case h_10 => rfl
  all_goals next hn => exact ⟨packXYN_eq_of_fields hg hn, rfl⟩

theorem decodeGroupE_recovers {op : Word} (hg : fieldG op = 0xE) : (decodeGroupE op).Recovers op := by
  unfold decodeGroupE
  split
  case h_3 => rfl
  all_goals next hkk => exact ⟨packXKK_eq_of_fields hg hkk, rfl⟩

theorem decodeGroupF_recovers {op : Word} (hg : fieldG op = 0xF) : (decodeGroupF op).Recovers op := by
  unfold decodeGroupF
  split
  case h_10 => rfl
  all_goals next hkk => exact ⟨packXKK_eq_of_fields hg hkk, rfl⟩

/-- Arm k of the decoder's match is the group of the words with field g = k - 1. -/
theorem decode_recovers (op : Word) : (decode op).Recovers op := by
  unfold decode
  split
  case h_1 hg => exact decodeGroup0_recovers hg
  case h_9 hg => exact decodeGroup8_recovers hg
  case h_15 hg => exact decodeGroupE_recovers hg
  case h_16 hg => exact decodeGroupF_recovers hg
  case h_17 => rfl
  case h_6 hg | h_10 hg =>
    split
    next hn => exact ⟨packXYN_eq_of_fields hg hn, rfl⟩
    next => rfl
  case h_2 hg | h_3 hg | h_11 hg | h_12 hg => exact ⟨packNNN_fields hg, rfl⟩
  case h_4 hg | h_5 hg | h_7 hg | h_8 hg | h_13 hg => exact ⟨packXKK_fields hg, rfl⟩
  case h_14 hg => exact ⟨packXYN_fields hg, rfl⟩

/-- Settles O2: arm by arm of the decoder, the answered instruction's format packs the word's own fields. -/
theorem encodeUndoesDecode : Obligations.EncodeUndoesDecode := by
  intro op i hd
  have h := decode_recovers op
  rw [hd] at h
  exact h

theorem encode_of_decode {op : Word} {i : Instr} (hd : decode op = .instr i) : encode i = op :=
  (encodeUndoesDecode op i hd).1

/-! #### The illegal words (30_encoding.md, section 3) -/

theorem decodeGroup8_eq_unknown {op : Word} :
    decodeGroup8 op = .unknown op ↔ (fieldN op).val ∈ [0x8, 0x9, 0xA, 0xB, 0xC, 0xD, 0xF] := by
  have hlt := (fieldN op).isLt
  unfold decodeGroup8
  split
  case h_10 => simp_all; omega
  all_goals next hn => simp [hn]

theorem decodeGroupE_eq_unknown {op : Word} :
    decodeGroupE op = .unknown op ↔ (fieldKK op).toNat ∉ [0x9E, 0xA1] := by
  unfold decodeGroupE
  split
  case h_3 => simp_all
  all_goals next hkk => simp [hkk]

theorem decodeGroupF_eq_unknown {op : Word} :
    decodeGroupF op = .unknown op ↔
      (fieldKK op).toNat ∉ [0x07, 0x0A, 0x15, 0x18, 0x1E, 0x29, 0x33, 0x55, 0x65] := by
  unfold decodeGroupF
  split
  case h_10 => simp_all
  all_goals next hkk => simp [hkk]

theorem decodeGroup0_ne_unknown (op w : Word) : decodeGroup0 op ≠ .unknown w := by
  unfold decodeGroup0
  split
  · nofun
  · split <;> nofun

/-- The groups 5, 8, 9, E and F hold illegal words, each by its own test; the others hold none. -/
theorem decode_eq_unknown {op : Word} :
    decode op = .unknown op ↔
      ((fieldG op = 5 ∨ fieldG op = 9) ∧ (fieldN op).val ≠ 0) ∨
      (fieldG op = 8 ∧ (fieldN op).val ∈ [0x8, 0x9, 0xA, 0xB, 0xC, 0xD, 0xF]) ∨
      (fieldG op = 14 ∧ (fieldKK op).toNat ∉ [0x9E, 0xA1]) ∨
      (fieldG op = 15 ∧ (fieldKK op).toNat ∉ [0x07, 0x0A, 0x15, 0x18, 0x1E, 0x29, 0x33, 0x55, 0x65]) := by
  have hlt : fieldG op < 16 := BitVec.isLt _
  unfold decode
  split
  case h_1 hg => simp [hg, decodeGroup0_ne_unknown]
  case h_9 hg => simp only [hg, decodeGroup8_eq_unknown]; simp
  case h_15 hg => simp only [hg, decodeGroupE_eq_unknown]; simp
  case h_16 hg => simp only [hg, decodeGroupF_eq_unknown]; simp
  case h_6 hg | h_10 hg => simp [hg]
  case h_17 => simp_all only [imp_false]; omega
  all_goals next hg => simp [hg]

/-- Settles O4: the list is `decode_eq_unknown` with the fields written as quotients and remainders of the word. -/
theorem illegalWordsAreExactlyTheListedOnes : Obligations.IllegalWordsAreExactlyTheListedOnes := by
  intro op
  dsimp only
  rw [← fieldG_eq, ← fieldN_val, ← fieldKK_toNat]
  exact decode_eq_unknown

/-- Settles O5: nine closed words, each run through the decoder. -/
theorem sampleWordsDecode : Obligations.SampleWordsDecode := by
  unfold Obligations.SampleWordsDecode
  decide

end Sys2Proof

/-! ### Frames: what each instruction may change (10_state.md, section 3; 41_control.md to 45_input_timers.md) -/

namespace Sys2Proof.Machine

open Sys2Proof

/-! #### What CALL, RET, the key wait and the key skips can do -/

theorem execCall_cases {nnn : Addr12} {s t : State} (h : execCall nnn s = .next t) :
    (s.sp.val = 16 ∧ t = raiseFatal (.stackOverflow (encode (.call nnn))) s) ∨
    ∃ hlt : s.sp.val < 16, t = { s with
      stack := s.stack.set s.sp.val s.pc, sp := ⟨s.sp.val + 1, by omega⟩, pc := zextAddr nnn } := by
  unfold execCall at h
  cases hp : pushPc s with
  | none =>
    rw [hp] at h
    exact .inl ⟨pushPc_eq_none hp, (Host.Outcome.next.inj h).symm⟩
  | some u =>
    rw [hp] at h
    obtain ⟨hlt, rfl⟩ := pushPc_eq_some hp
    exact .inr ⟨hlt, (Host.Outcome.next.inj h).symm⟩

theorem execRet_cases {s t : State} (h : execRet s = .next t) :
    (s.sp.val = 0 ∧ t = raiseFatal (.stackUnderflow (encode .ret)) s) ∨
    ∃ (k : Nat) (hk : k < 16), s.sp.val = k + 1 ∧ t = { s with sp := ⟨k, by omega⟩, pc := s.stack[k] } := by
  unfold execRet at h
  cases hp : popPc s with
  | none =>
    rw [hp] at h
    exact .inl ⟨popPc_eq_none hp, (Host.Outcome.next.inj h).symm⟩
  | some u =>
    rw [hp] at h
    obtain rfl := Host.Outcome.next.inj h
    exact .inr (popPc_eq_some hp)

theorem execLdVxK_cases {x : Reg} {s t : State} (h : execLdVxK x s = .next t) :
    (s.lowestKey = none ∧ t = s.setPc (s.pc - 2)) ∨
    ∃ k, s.lowestKey = some k ∧ t = s.setV x (BitVec.ofNat 8 k.val) := by
  cases hk : s.lowestKey with
  | none => exact .inl ⟨rfl, Host.Outcome.next.inj (h.symm.trans (exec_ldVxK_of_lowestKey_none hk))⟩
  | some k => exact .inr ⟨k, rfl, Host.Outcome.next.inj (h.symm.trans (exec_ldVxK_of_lowestKey_some hk))⟩

theorem withKey_skipIf_cases {op : Word} {x : Reg} {c : Bool → Bool} {s t : State}
    (h : withKey op x s (fun down => skipIf (c down) s) = .next t) :
    (∃ b, skipIf b s = .next t) ∨ ((s.getV x).toNat > 15 ∧ t = raiseFatal (.keyIndex op (s.getV x)) s) :=
  (withKey_cases h).imp_left fun ⟨_, hskip⟩ => ⟨_, hskip⟩

/-! #### The frame of each shared operation -/

section frames

variable {f : Footprint} {s t u : State}

theorem UnchangedOutside.refl : UnchangedOutside f s s := by
  simp [UnchangedOutside]

theorem UnchangedOutside.trans (hst : UnchangedOutside f s t) (htu : UnchangedOutside f t u) :
    UnchangedOutside f s u := by
  obtain ⟨hV, hmem, hstack, hI, hpc, hsp, hDT, hST, hdisp, hfatal, hdraws, hkey, htone⟩ := hst
  obtain ⟨hV', hmem', hstack', hI', hpc', hsp', hDT', hST', hdisp', hfatal', hdraws', hkey', htone'⟩ := htu
  exact ⟨fun r h => (hV' r h).trans (hV r h), fun a h => (hmem' a h).trans (hmem a h),
    fun j h => (hstack' j h).trans (hstack j h), fun h => (hI' h).trans (hI h), fun h => (hpc' h).trans (hpc h),
    fun h => (hsp' h).trans (hsp h), fun h => (hDT' h).trans (hDT h), fun h => (hST' h).trans (hST h),
    fun h => ⟨(hdisp' h).1.trans (hdisp h).1, (hdisp' h).2.trans (hdisp h).2⟩,
    fun h => ⟨(hfatal' h).1.trans (hfatal h).1, (hfatal' h).2.trans (hfatal h).2⟩,
    fun h => (hdraws' h).trans (hdraws h), hkey'.trans hkey, htone'.trans htone⟩

theorem setV_frame {x : Reg} (hx : f.V x) (v : Byte) : UnchangedOutside f s (s.setV x v) := by
  have hV : ∀ r, ¬ f.V r → (s.setV x v).getV r = s.getV r :=
    fun r hr => getV_setV_other s x r v fun e => hr (e ▸ hx)
  simpa [UnchangedOutside] using hV

theorem flagThenResult_frame {x : Reg} (hx : f.V x) (hvf : f.V vf) (flag : Byte → Byte → Bool)
    (result : Byte → Byte → Byte) (y : Reg) : UnchangedOutside f s (flagThenResult flag result x y s) :=
  (setV_frame hvf _).trans (setV_frame hx _)

theorem consumeDraw_frame (hdraws : f.draws) : UnchangedOutside f s s.consumeDraw := by
  simp [UnchangedOutside, hdraws]

theorem setPc_frame (hpc : f.pc) (w : Word) : UnchangedOutside f s (s.setPc w) := by
  simp [UnchangedOutside, hpc]

theorem advancePc_frame (hpc : f.pc) : UnchangedOutside f s s.advancePc :=
  setPc_frame hpc _

theorem setI_frame (hI : f.I) (w : Word) : UnchangedOutside f s (s.setI w) := by
  simp [UnchangedOutside, hI]

theorem raiseFatal_frame (hfatal : f.fatal) (e : Fatal) : UnchangedOutside f s (raiseFatal e s) := by
  simp [UnchangedOutside, hfatal]

theorem storeBytes_frame {a : Nat} {bytes : List Byte} (h : ∀ b, a ≤ b → b < a + bytes.length → f.mem b) :
    UnchangedOutside f s (storeBytes a bytes s) := by
  have hmem : ∀ b, ¬ f.mem b → (s.mem.writeList a bytes).read b = s.mem.read b := by
    intro b hb
    have hout : ¬ (a ≤ b ∧ b < a + bytes.length) := fun hin => hb (h b hin.1 hin.2)
    exact Memory.read_writeList_outside bytes s.mem a (by omega)
  simpa [UnchangedOutside] using hmem

theorem loadBlock_frame {x : Reg} (h : ∀ r ≤ x, f.V r) (a : Nat) : UnchangedOutside f s (loadBlock s x a) := by
  have hV : ∀ r, ¬ f.V r → (loadBlock s x a).getV r = s.getV r := by
    intro r hr
    rw [getV_loadBlock, if_neg fun hle => hr (h r hle)]
  simpa [UnchangedOutside] using hV

theorem drawSprite_frame (hvf : f.V vf) (hdisp : f.display) (xc yc : Nat) (n : RowCount) :
    UnchangedOutside f s (drawSprite xc yc n s) := by
  have hfb : UnchangedOutside f (s.setV vf (flagByte (drawRows s.mem s.base xc yc (List.range n.val) (s.fb, false)).2))
      (drawSprite xc yc n s) := by
    simp [UnchangedOutside, hdisp, drawSprite, State.getV]
  exact (setV_frame hvf _).trans hfb

theorem withAddrs_frame {op : Word} {base count : Nat} {body : State → State}
    (hfatal : 0 < count → base + count > 4096 → f.fatal) (hbody : UnchangedOutside f s (body s))
    (h : withAddrs op base count body s = .next t) : UnchangedOutside f s t := by
  obtain ⟨hcount, hbad, rfl⟩ | ⟨-, rfl⟩ := withAddrs_cases h
  · exact raiseFatal_frame (hfatal hcount hbad) _
  · exact hbody

theorem skipIf_frame {c : Bool} (hpc : f.pc) (h : skipIf c s = .next t) : UnchangedOutside f s t := by
  obtain ⟨-, rfl⟩ | ⟨-, rfl⟩ := skipIf_cases h
  · exact advancePc_frame hpc
  · exact .refl

theorem withKey_skipIf_frame {op : Word} {x : Reg} {c : Bool → Bool} (hpc : f.pc)
    (hfatal : (s.getV x).toNat > 15 → f.fatal)
    (h : withKey op x s (fun down => skipIf (c down) s) = .next t) : UnchangedOutside f s t := by
  obtain ⟨_, hskip⟩ | ⟨hx, rfl⟩ := withKey_skipIf_cases h
  · exact skipIf_frame hpc hskip
  · exact raiseFatal_frame (hfatal hx) _

theorem execCall_frame {nnn : Addr12} (hpc : f.pc) (hsp : f.sp) (hstack : ∀ j : Reg, j.val = s.sp.val → f.stack j)
    (hfatal : s.sp.val = 16 → f.fatal) (h : execCall nnn s = .next t) : UnchangedOutside f s t := by
  obtain ⟨hfull, rfl⟩ | ⟨hlt, rfl⟩ := execCall_cases h
  · exact raiseFatal_frame (hfatal hfull) _
  · have hkeep : ∀ j : Reg, ¬ f.stack j → (s.stack.set s.sp.val s.pc)[j.val] = s.stack[j.val] :=
      fun j hj => Vector.getElem_set_ne hlt j.isLt fun e => hj (hstack j e.symm)
    simpa [UnchangedOutside, hpc, hsp, State.getV] using hkeep

theorem execRet_frame (hpc : f.pc) (hsp : f.sp) (hfatal : s.sp.val = 0 → f.fatal) (h : execRet s = .next t) :
    UnchangedOutside f s t := by
  obtain ⟨hempty, rfl⟩ | ⟨k, hk, -, rfl⟩ := execRet_cases h
  · exact raiseFatal_frame (hfatal hempty) _
  · simp [UnchangedOutside, hpc, hsp, State.getV]

theorem execLdVxK_frame {x : Reg} (hV : s.lowestKey ≠ none → f.V x) (hpc : s.lowestKey = none → f.pc)
    (h : execLdVxK x s = .next t) : UnchangedOutside f s t := by
  obtain ⟨hk, rfl⟩ | ⟨k, hk, rfl⟩ := execLdVxK_cases h
  · exact setPc_frame (hpc hk) _
  · exact setV_frame (hV (by simp [hk])) _

end frames

/-! #### The footprint of every instruction -/

/-- What an instruction may change from a state. -/
def footprint (i : Instr) (s : State) : Footprint :=
  match i with
  | .sys _ => {}
  | .jp _ | .jpV0 _ | .seImm _ _ | .sneImm _ _ | .seReg _ _ | .sneReg _ _ => { pc := True }
  | .skp x | .sknp x => { pc := True, fatal := (s.getV x).toNat > 15 }
  | .call _ => { pc := True, sp := True, stack := fun j => j.val = s.sp.val, fatal := s.sp.val = 16 }
  | .ret => { pc := True, sp := True, fatal := s.sp.val = 0 }
  | .ldImm x _ | .addImm x _ | .ldReg x _ | .orReg x _ | .andReg x _ | .xorReg x _ | .ldVxDT x =>
    { V := fun r => r = x }
  | .rnd x _ => { V := fun r => r = x, draws := True }
  | .addReg x _ | .sub x _ | .shr x _ | .subn x _ | .shl x _ => { V := fun r => r = x ∨ r = 15 }
  | .cls => { display := True }
  | .drw _ y n =>
    { V := fun r => r = 15
      display := True
      fatal := 0 < visibleRows n (startRow (s.getV y)) ∧ s.base + visibleRows n (startRow (s.getV y)) > 4096 }
  | .ldI _ | .addIVx _ | .ldFVx _ => { I := True }
  | .ldVxK x => { V := fun r => r = x ∧ s.lowestKey ≠ none, pc := s.lowestKey = none }
  | .ldDTVx _ => { DT := True }
  | .ldSTVx _ => { ST := True }
  | .ldBVx _ => { mem := fun a => s.base ≤ a ∧ a < s.base + 3, fatal := s.base + 2 > 4095 }
  | .ldMemVx x => { mem := fun a => s.base ≤ a ∧ a < s.base + (x.val + 1), fatal := s.base + x.val > 4095 }
  | .ldVxMem x => { V := fun r => r ≤ x, fatal := s.base + x.val > 4095 }

/-- Executing an instruction changes nothing outside its footprint. -/
theorem exec_frame {i : Instr} {s t : State} (h : exec i s = .next t) : UnchangedOutside (footprint i s) s t := by
  cases i with
  | ret => exact execRet_frame trivial trivial id h
  | call => exact execCall_frame trivial trivial (fun _ => id) id h
  | seImm | sneImm | seReg | sneReg => exact skipIf_frame trivial h
  | skp => exact withKey_skipIf_frame (c := id) trivial id h
  | sknp => exact withKey_skipIf_frame (c := not) trivial id h
  | ldVxK => exact execLdVxK_frame (fun hk => ⟨rfl, hk⟩) id h
  | drw => exact withAddrs_frame And.intro (drawSprite_frame rfl trivial _ _ _) h
  | ldBVx =>
    exact withAddrs_frame (fun _ hbad => by simp only [footprint]; omega)
      (storeBytes_frame fun _ hle hlt => ⟨hle, by simpa using hlt⟩) h
  | ldMemVx =>
    exact withAddrs_frame (fun _ hbad => by simp only [footprint]; omega)
      (storeBytes_frame fun _ hle hlt => ⟨hle, by simpa using hlt⟩) h
  | ldVxMem x =>
    exact withAddrs_frame (body := fun s => loadBlock s x s.base) (fun _ hbad => by simp only [footprint]; omega)
      (loadBlock_frame (fun _ => id) s.base) h
  | rnd =>
    obtain rfl := Host.Outcome.next.inj h
    exact (consumeDraw_frame trivial).trans (setV_frame rfl _)
  | ldImm | addImm | ldReg | orReg | andReg | xorReg | ldVxDT =>
    obtain rfl := Host.Outcome.next.inj h
    exact setV_frame rfl _
  | addReg | sub | shr | subn | shl =>
    obtain rfl := Host.Outcome.next.inj h
    exact flagThenResult_frame (Or.inl rfl) (Or.inr rfl) _ _ _
  | ldI | addIVx | ldFVx =>
    obtain rfl := Host.Outcome.next.inj h
    exact setI_frame trivial _
  | jp | jpV0 =>
    obtain rfl := Host.Outcome.next.inj h
    exact setPc_frame trivial _
  | sys =>
    obtain rfl := Host.Outcome.next.inj h
    exact .refl
  | cls | ldDTVx | ldSTVx =>
    obtain rfl := Host.Outcome.next.inj h
    simp [UnchangedOutside, footprint, State.getV]

/-- Settles O45: each form's footprint is the one stated. -/
theorem registerFormsFrame : Obligations.RegisterFormsFrame := by
  intro x y kk s t
  simp only [List.forall_mem_cons]
  exact ⟨⟨exec_frame, exec_frame, exec_frame, exec_frame, exec_frame, exec_frame, exec_frame, nofun⟩, exec_frame,
    exec_frame, exec_frame, exec_frame, exec_frame, exec_frame, nofun⟩

/-- Settles O46: each form's footprint is the one stated. -/
theorem pcFormsFrame : Obligations.PcFormsFrame := by
  intro x y kk nnn s t
  simp only [List.forall_mem_cons]
  exact ⟨exec_frame, ⟨exec_frame, exec_frame, exec_frame, exec_frame, exec_frame, exec_frame, nofun⟩,
    exec_frame, exec_frame, nofun⟩

/-- Settles O47: the footprints of CALL and RET are those stated. -/
theorem stackFormsFrame : Obligations.StackFormsFrame :=
  fun _ _ _ => ⟨exec_frame, exec_frame⟩

/-- Settles O48: the footprints of the memory transfers are those stated. -/
theorem memoryFormsFrame : Obligations.MemoryFormsFrame :=
  fun _ _ _ => ⟨exec_frame, exec_frame, exec_frame⟩

/-- Settles O49: the footprints of CLS and DRW are those stated. -/
theorem displayFormsFrame : Obligations.DisplayFormsFrame :=
  fun _ _ _ _ _ => ⟨exec_frame, exec_frame⟩

/-- Settles O50: each form's footprint is the one stated. -/
theorem indexTimerAndKeyFormsFrame : Obligations.IndexTimerAndKeyFormsFrame := by
  intro x nnn s t
  simp only [List.forall_mem_cons]
  exact ⟨⟨exec_frame, exec_frame, exec_frame, nofun⟩, exec_frame, exec_frame, exec_frame⟩

end Sys2Proof.Machine

/-! ### The cycle: its frame, its timers and its fatal conditions (40_cycle.md; 60_exceptions.md) -/

namespace Sys2Proof.Machine

open Sys2Proof

/-! #### Each field outside a footprint is unchanged -/

theorem UnchangedOutside.getV_eq {f : Footprint} {s t : State} (h : UnchangedOutside f s t) {r : Reg} (hr : ¬ f.V r) :
    t.getV r = s.getV r := by
  obtain ⟨hV, -⟩ := h
  exact hV r hr

theorem UnchangedOutside.read_eq {f : Footprint} {s t : State} (h : UnchangedOutside f s t) {a : Nat} (ha : ¬ f.mem a) :
    t.mem.read a = s.mem.read a := by
  obtain ⟨-, hmem, -⟩ := h
  exact hmem a ha

theorem UnchangedOutside.stack_eq {f : Footprint} {s t : State} (h : UnchangedOutside f s t) (hj : ∀ j, ¬ f.stack j) :
    t.stack = s.stack := by
  obtain ⟨-, -, hstack, -⟩ := h
  exact Vector.ext fun j hlt => hstack ⟨j, hlt⟩ (hj ⟨j, hlt⟩)

theorem UnchangedOutside.I_eq {f : Footprint} {s t : State} (h : UnchangedOutside f s t) (hI : ¬ f.I) : t.I = s.I := by
  obtain ⟨-, -, -, h, -⟩ := h
  exact h hI

theorem UnchangedOutside.pc_eq {f : Footprint} {s t : State} (h : UnchangedOutside f s t) (hpc : ¬ f.pc) :
    t.pc = s.pc := by
  obtain ⟨-, -, -, -, h, -⟩ := h
  exact h hpc

theorem UnchangedOutside.sp_eq {f : Footprint} {s t : State} (h : UnchangedOutside f s t) (hsp : ¬ f.sp) :
    t.sp = s.sp := by
  obtain ⟨-, -, -, -, -, h, -⟩ := h
  exact h hsp

theorem UnchangedOutside.DT_eq {f : Footprint} {s t : State} (h : UnchangedOutside f s t) (hDT : ¬ f.DT) :
    t.DT = s.DT := by
  obtain ⟨-, -, -, -, -, -, h, -⟩ := h
  exact h hDT

theorem UnchangedOutside.ST_eq {f : Footprint} {s t : State} (h : UnchangedOutside f s t) (hST : ¬ f.ST) :
    t.ST = s.ST := by
  obtain ⟨-, -, -, -, -, -, -, h, -⟩ := h
  exact h hST

theorem UnchangedOutside.display_eq {f : Footprint} {s t : State} (h : UnchangedOutside f s t) (hd : ¬ f.display) :
    t.fb = s.fb ∧ t.drawPending = s.drawPending := by
  obtain ⟨-, -, -, -, -, -, -, -, h, -⟩ := h
  exact h hd

theorem UnchangedOutside.key_eq {f : Footprint} {s t : State} (h : UnchangedOutside f s t) : t.key = s.key := by
  obtain ⟨-, -, -, -, -, -, -, -, -, -, -, h, -⟩ := h
  exact h

theorem UnchangedOutside.tone_eq {f : Footprint} {s t : State} (h : UnchangedOutside f s t) : t.tone = s.tone := by
  obtain ⟨-, -, -, -, -, -, -, -, -, -, -, -, h⟩ := h
  exact h

/-! #### What one cycle may change -/

/-- What the cycle from a state may change before its tick: what its instruction may, and pc, terminate and diag. -/
def cycleFootprint (s : State) : Footprint where
  V r := ∃ i, nextInstr s = some i ∧ (footprint i s).V r
  mem a := ∃ i, nextInstr s = some i ∧ (footprint i s).mem a
  stack j := ∃ i, nextInstr s = some i ∧ (footprint i s).stack j
  I := ∃ i, nextInstr s = some i ∧ (footprint i s).I
  pc := True
  sp := ∃ i, nextInstr s = some i ∧ (footprint i s).sp
  DT := ∃ i, nextInstr s = some i ∧ (footprint i s).DT
  ST := ∃ i, nextInstr s = some i ∧ (footprint i s).ST
  display := ∃ i, nextInstr s = some i ∧ (footprint i s).display
  fatal := True
  draws := ∃ i, nextInstr s = some i ∧ (footprint i s).draws

/-- Clearing the outputs and advancing pc touch nothing that a footprint depends on. -/
theorem footprint_advanced (i : Instr) (s : State) : footprint i (clearOutputs s).advancePc = footprint i s := by
  cases i <;> rfl

theorem UnchangedOutside.to_cycleFootprint {i : Instr} {s u v : State} (hi : nextInstr s = some i)
    (h : UnchangedOutside (footprint i s) u v) : UnchangedOutside (cycleFootprint s) u v := by
  obtain ⟨hV, hmem, hstack, hI, -, hsp, hDT, hST, hdisp, -, hdraws, hkey, htone⟩ := h
  exact ⟨fun r hr => hV r fun hf => hr ⟨i, hi, hf⟩, fun a ha => hmem a fun hf => ha ⟨i, hi, hf⟩,
    fun j hj => hstack j fun hf => hj ⟨i, hi, hf⟩, fun hn => hI fun hf => hn ⟨i, hi, hf⟩, fun hn => absurd trivial hn,
    fun hn => hsp fun hf => hn ⟨i, hi, hf⟩, fun hn => hDT fun hf => hn ⟨i, hi, hf⟩,
    fun hn => hST fun hf => hn ⟨i, hi, hf⟩, fun hn => hdisp fun hf => hn ⟨i, hi, hf⟩, fun hn => absurd trivial hn,
    fun hn => hdraws fun hf => hn ⟨i, hi, hf⟩, hkey, htone⟩

/-- A cycle is a change within its footprint and then the tick. -/
theorem step_frame {s t : State} (h : step s = .next t) :
    ∃ u, t = timerTick u ∧ UnchangedOutside (cycleFootprint s) (clearOutputs s) u := by
  obtain ⟨-, rfl⟩ | ⟨_, w, -, -, rfl⟩ | ⟨i, u, hi, hu, rfl⟩ := step_cases h
  · exact ⟨_, rfl, raiseFatal_frame trivial _⟩
  · exact ⟨_, rfl, (advancePc_frame trivial).trans (raiseFatal_frame trivial _)⟩
  · have hframe := exec_frame hu
    rw [footprint_advanced] at hframe
    exact ⟨u, rfl, (advancePc_frame trivial).trans (hframe.to_cycleFootprint hi)⟩

/-- A cycle that executes an instruction is the instruction from the advanced state, and then the tick. -/
theorem step_of_nextInstr {i : Instr} {s t : State} (hi : nextInstr s = some i) (h : step s = .next t) :
    ∃ u, exec i (clearOutputs s).advancePc = .next u ∧ t = timerTick u := by
  obtain ⟨u, hu, -⟩ := (exec_raisesExactly i (clearOutputs s).advancePc).exists_next
  rw [step_instr hi, hu] at h
  exact ⟨u, hu, (Host.Outcome.next.inj h).symm⟩

/-- Settles O6: the three cases of a step, from the fetch and the decoded word. -/
theorem cycleFetchesAdvancesExecutesTicks : Obligations.CycleFetchesAdvancesExecutesTicks := by
  intro s op advanced
  refine ⟨step_fetchFault, fun hpc i t hd hexec => ?_, fun hpc hd => step_unknown (fetchWord_of_lt hpc) hd⟩
  rw [step_instr (nextInstr_eq_some.2 ⟨op, fetchWord_of_lt hpc, hd⟩)]
  exact congrArg thenTick hexec

/-- Settles O10: every cycle answers a next state, which `step_terminate` describes. -/
theorem everyStepAnswersANextState : Obligations.EveryStepAnswersANextState := by
  intro s
  obtain ⟨t, ht, -⟩ := step_terminate s
  exact ⟨t, ht⟩

/-- Settles O11: a cycle clears both outputs before it reads anything. -/
theorem outputsAreNotReadBack : Obligations.OutputsAreNotReadBack := by
  intro s tone diag
  have hclear : clearOutputs { s with tone := tone, diag := diag } = clearOutputs s := rfl
  rw [step, step, cycleWith, cycleWith, hclear]

/-! #### The timers -/

theorem footprint_DT {i : Instr} {s : State} (h : (footprint i s).DT) : ∃ x, i = .ldDTVx x := by
  cases i with
  | ldDTVx x => exact ⟨x, rfl⟩
  | _ => exact False.elim h

theorem footprint_ST {i : Instr} {s : State} (h : (footprint i s).ST) : ∃ x, i = .ldSTVx x := by
  cases i with
  | ldSTVx x => exact ⟨x, rfl⟩
  | _ => exact False.elim h

/-- Settles O7: no instruction but Fx15 has DT in its footprint, so the tick finds it as the cycle began. -/
theorem delayTimerCountsDownEveryCycle : Obligations.DelayTimerCountsDownEveryCycle := by
  refine ⟨fun s => tickDown_toNat s.DT, fun s t hstep hnot => ?_⟩
  obtain ⟨u, rfl, hframe⟩ := step_frame hstep
  have hDT : u.DT = s.DT := hframe.DT_eq fun ⟨i, hi, hf⟩ => by
    obtain ⟨x, rfl⟩ := footprint_DT hf
    exact hnot x hi
  rw [timerTick_DT, hDT, tickDown_toNat]

/-- Settles O8: no instruction but Fx18 has ST in its footprint, so the tick finds it as the cycle began; no instruction
sounds the tone. -/
theorem soundTimerCountsDownAndSounds : Obligations.SoundTimerCountsDownAndSounds := by
  intro s t hstep hnot
  obtain ⟨u, rfl, hframe⟩ := step_frame hstep
  have hST : u.ST = s.ST := hframe.ST_eq fun ⟨i, hi, hf⟩ => by
    obtain ⟨x, rfl⟩ := footprint_ST hf
    exact hnot x hi
  have htone : u.tone = false := hframe.tone_eq
  exact ⟨by rw [timerTick_ST, hST, tickDown_toNat], by rw [timerTick_tone, hST, htone, Bool.or_false]⟩

theorem exec_ldDTVx (x : Reg) (s : State) : exec (.ldDTVx x) s = .next { s with DT := s.getV x } := rfl

theorem exec_ldSTVx (x : Reg) (s : State) : exec (.ldSTVx x) s = .next { s with ST := s.getV x } := rfl

/-- Settles O9: the instruction loads the timer, and the tick of its own cycle comes after it. -/
theorem loadedTimersTickInTheSameCycle : Obligations.LoadedTimersTickInTheSameCycle := by
  intro s t x hstep
  refine ⟨fun hi => ?_, fun hi => ?_⟩
  · obtain ⟨u, hu, rfl⟩ := step_of_nextInstr hi hstep
    obtain rfl := Host.Outcome.next.inj ((exec_ldDTVx x _).symm.trans hu)
    exact tickDown_toNat (s.getV x)
  · obtain ⟨u, hu, rfl⟩ := step_of_nextInstr hi hstep
    obtain rfl := Host.Outcome.next.inj ((exec_ldSTVx x _).symm.trans hu)
    exact ⟨tickDown_toNat (s.getV x), Bool.or_false _⟩

/-- Settles O43: the words decode by format X, and each meaning is one write of a timer. -/
theorem loadTimers : Obligations.LoadTimers :=
  ⟨fun x => ⟨decode_packXKK_ldDTVx x, decode_packXKK_ldSTVx x⟩, fun x s => ⟨exec_ldDTVx x s, exec_ldSTVx x s⟩⟩

/-- Settles O44: the jump of an idle state undoes the advance of pc. -/
theorem idleStateOnlyTicks : Obligations.IdleStateOnlyTicks := by
  rintro s ⟨nnn, hnext, hself⟩
  have hjump : exec (.jp nnn) (clearOutputs s).advancePc = .next (clearOutputs s) := by
    rw [exec, execJp, hself]
    rfl
  rw [step_instr hnext, hjump]
  rfl

/-! #### The fatal condition of a cycle -/

theorem step_of_instrFatal {op : Word} {i : Instr} {s : State} {f : Fatal} (hf : fetchWord s = some op)
    (hd : decode op = .instr i) (hfatal : instrFatal op i s = some f) :
    step s = .next (timerTick (raiseFatal f (clearOutputs s).advancePc)) := by
  have hexec := exec_raisesExactly i (clearOutputs s).advancePc
  rw [encode_of_decode hd, instrFatal_advanced, hfatal, raisesExactly_some] at hexec
  rw [step_instr (nextInstr_eq_some.2 ⟨op, hf, hd⟩), hexec]
  rfl

/-- Settles O13: a fetch fault does not advance pc; an unknown word, and an instruction whose condition is met, raise it on
the advanced state. -/
theorem fatalConditionHasNoOtherEffect : Obligations.FatalConditionHasNoOtherEffect := by
  intro s f hfatal
  cases hf : fetchWord s with
  | none =>
    have hpc := fetchWord_eq_none.1 hf
    rw [expectedFatal_fetchFault hpc] at hfatal
    obtain rfl := Option.some.inj hfatal
    rw [step_fetchFault hpc, if_pos hpc]
    rfl
  | some op =>
    obtain ⟨hpc, -⟩ := fetchWord_eq_some.1 hf
    rw [if_neg (Nat.not_le.2 hpc)]
    cases hd : decode op with
    | unknown w =>
      obtain rfl := eq_of_decode_unknown hd
      rw [expectedFatal_unknown hf hd] at hfatal
      obtain rfl := Option.some.inj hfatal
      exact step_unknown hf hd
    | instr i =>
      rw [expectedFatal_instr hf hd] at hfatal
      exact step_of_instrFatal hf hd hfatal

/-- A cycle that meets no row of the table emits no record. -/
theorem step_diag_of_expectedFatal_none {s t : State} (h : step s = .next t) (hnone : expectedFatal s = none) :
    t.diag = none := by
  cases hf : fetchWord s with
  | none =>
    rw [expectedFatal_fetchFault (fetchWord_eq_none.1 hf)] at hnone
    nomatch hnone
  | some op =>
    cases hd : decode op with
    | unknown w =>
      rw [expectedFatal_unknown hf hd] at hnone
      nomatch hnone
    | instr i =>
      rw [expectedFatal_instr hf hd] at hnone
      have hexec := exec_raisesExactly i (clearOutputs s).advancePc
      rw [encode_of_decode hd, instrFatal_advanced, hnone] at hexec
      obtain ⟨u, hu, -, hdiag⟩ := hexec
      obtain ⟨u', hu', rfl⟩ := step_of_nextInstr (nextInstr_eq_some.2 ⟨op, hf, hd⟩) h
      obtain rfl := Host.Outcome.next.inj (hu.symm.trans hu')
      exact hdiag

/-- Settles O12: with a row met the whole next state is known, its record included; with none the record stays cleared. -/
theorem diagIsTheRowOfTheFatalTable : Obligations.DiagIsTheRowOfTheFatalTable := by
  intro s t hstep
  cases hfatal : expectedFatal s with
  | none => exact step_diag_of_expectedFatal_none hstep hfatal
  | some f =>
    rw [fatalConditionHasNoOtherEffect s f hfatal] at hstep
    obtain rfl := Host.Outcome.next.inj hstep
    rfl

/-! #### Where pc is after a cycle -/

theorem skipIf_pc {c : Bool} {s t : State} (h : skipIf c s = .next t) : t.pc = s.pc ∨ t.pc = s.pc + 2 := by
  obtain ⟨-, rfl⟩ | ⟨-, rfl⟩ := skipIf_cases h
  · exact .inr rfl
  · exact .inl rfl

theorem withKey_skipIf_pc {op : Word} {x : Reg} {c : Bool → Bool} {s t : State}
    (h : withKey op x s (fun down => skipIf (c down) s) = .next t) : t.pc = s.pc ∨ t.pc = s.pc + 2 := by
  obtain ⟨_, hskip⟩ | ⟨-, rfl⟩ := withKey_skipIf_cases h
  · exact skipIf_pc hskip
  · exact .inl rfl

theorem execLdVxK_pc {x : Reg} {s t : State} (h : execLdVxK x s = .next t) :
    t.pc = s.pc ∨ (t.pc = s.pc - 2 ∧ ∀ k, s.keyDown k = false) := by
  obtain ⟨hk, rfl⟩ | ⟨k, -, rfl⟩ := execLdVxK_cases h
  · exact .inr ⟨rfl, lowestKey_eq_none.1 hk⟩
  · exact .inl rfl

/-- Settles O53: a skip or a key wait moves the advanced pc by its own rule; of the other instructions only JP, CALL, RET
and JP V0 have pc in their footprint. -/
theorem pcAdvancesByTwoOrFour : Obligations.PcAdvancesByTwoOrFour := by
  intro s t i hi hstep
  obtain ⟨u, hu, rfl⟩ := step_of_nextInstr hi hstep
  have hskip : u.pc = s.pc + 2 ∨ u.pc = s.pc + 2 + 2 → u.pc = s.pc + 2 ∨ u.pc = s.pc + 4 := by
    rw [BitVec.add_assoc]
    exact id
  cases i with
  | jp | call | ret | jpV0 => trivial
  | seImm | sneImm | seReg | sneReg => exact hskip (skipIf_pc hu)
  | skp => exact hskip (withKey_skipIf_pc (c := id) hu)
  | sknp => exact hskip (withKey_skipIf_pc (c := not) hu)
  | ldVxK =>
    refine (execLdVxK_pc hu).imp id fun ⟨hpc, hkeys⟩ => ⟨?_, hkeys⟩
    rw [timerTick_pc, hpc]
    exact BitVec.add_sub_cancel _ _
  | _ => exact (exec_frame hu).pc_eq id

/-! #### Who writes what -/

theorem footprint_display {i : Instr} {s : State} (h : (footprint i s).display) :
    i = .cls ∨ ∃ x y n, i = .drw x y n := by
  cases i with
  | cls => exact .inl rfl
  | drw x y n => exact .inr ⟨x, y, n, rfl⟩
  | _ => exact False.elim h

theorem footprint_I {i : Instr} {s : State} (h : (footprint i s).I) :
    ∃ x nnn, i = .ldI nnn ∨ i = .addIVx x ∨ i = .ldFVx x := by
  cases i with
  | ldI nnn => exact ⟨0, nnn, .inl rfl⟩
  | addIVx x => exact ⟨x, 0, .inr (.inl rfl)⟩
  | ldFVx x => exact ⟨x, 0, .inr (.inr rfl)⟩
  | _ => exact False.elim h

theorem footprint_sp {i : Instr} {s : State} (h : (footprint i s).sp) : ∃ nnn, i = .call nnn ∨ i = .ret := by
  cases i with
  | call nnn => exact ⟨nnn, .inl rfl⟩
  | ret => exact ⟨0, .inr rfl⟩
  | _ => exact False.elim h

theorem footprint_stack {i : Instr} {s : State} {j : Reg} (h : (footprint i s).stack j) : ∃ nnn, i = .call nnn := by
  cases i with
  | call nnn => exact ⟨nnn, rfl⟩
  | _ => exact False.elim h

theorem footprint_mem {i : Instr} {s : State} {a : Nat} (h : (footprint i s).mem a) :
    (∃ x, i = .ldBVx x ∧ s.I.toNat ≤ a ∧ a ≤ s.I.toNat + 2) ∨
    (∃ x, i = .ldMemVx x ∧ s.I.toNat ≤ a ∧ a ≤ s.I.toNat + x.val) := by
  cases i with
  | ldBVx x => exact .inl ⟨x, rfl, h.1, Nat.le_of_lt_succ h.2⟩
  | ldMemVx x => exact .inr ⟨x, rfl, h.1, Nat.le_of_lt_succ h.2⟩
  | _ => exact False.elim h

/-- An instruction that may write VF produces a flag or names VF as a destination (10_state.md, section 3). -/
theorem footprint_vf {i : Instr} {s : State} (h : (footprint i s).V 15) :
    (∃ x y n, i ∈ [Instr.addReg x y, .sub x y, .shr x y, .subn x y, .shl x y, .drw x y n]) ∨
    (∃ y kk, i ∈ [Instr.ldImm 15 kk, .addImm 15 kk, .ldReg 15 y, .orReg 15 y, .andReg 15 y, .xorReg 15 y, .rnd 15 kk,
      .ldVxDT 15, .ldVxK 15, .ldVxMem 15]) := by
  cases i with
  | addReg x y | sub x y | shr x y | subn x y | shl x y => exact .inl ⟨x, y, 0, by simp⟩
  | drw x y n => exact .inl ⟨x, y, n, by simp⟩
  | ldImm x kk | addImm x kk | rnd x kk =>
    obtain rfl : 15 = x := h
    exact .inr ⟨0, kk, by simp⟩
  | ldReg x y | orReg x y | andReg x y | xorReg x y =>
    obtain rfl : 15 = x := h
    exact .inr ⟨y, 0, by simp⟩
  | ldVxDT x =>
    obtain rfl : 15 = x := h
    exact .inr ⟨0, 0, by simp⟩
  | ldVxK x =>
    obtain ⟨rfl, -⟩ : 15 = x ∧ _ := h
    exact .inr ⟨0, 0, by simp⟩
  | ldVxMem x =>
    obtain rfl : x = 15 := Fin.last_le_iff.1 h
    exact .inr ⟨0, 0, by simp⟩
  | _ => exact False.elim h

/-- Settles O52: VF is in the footprint of the named instructions only. -/
theorem onlyTheNamedInstructionsWriteVf : Obligations.OnlyTheNamedInstructionsWriteVf := by
  intro i s t hexec hne
  exact footprint_vf (not_not.1 fun hvf => hne ((exec_frame hexec).getV_eq hvf))

/-- DRW raises draw_pending or changes nothing of the display. -/
theorem execDrw_display {x y : Reg} {n : RowCount} {s t : State} (h : execDrw x y n s = .next t) :
    t.drawPending = true ∨ (t.fb = s.fb ∧ t.drawPending = s.drawPending) := by
  obtain ⟨-, -, rfl⟩ | ⟨-, rfl⟩ := withAddrs_cases h
  · exact .inr ⟨rfl, rfl⟩
  · exact .inl rfl

/-- A cycle that changes the display raises draw_pending. -/
theorem step_display {s t : State} (h : step s = .next t) :
    (t.fb = s.fb ∧ t.drawPending = s.drawPending) ∨
    (t.drawPending = true ∧ (nextInstr s = some .cls ∨ ∃ x y n, nextInstr s = some (.drw x y n))) := by
  by_cases hdisp : (cycleFootprint s).display
  · obtain ⟨i, hi, hf⟩ := hdisp
    obtain ⟨u, hu, rfl⟩ := step_of_nextInstr hi h
    obtain rfl | ⟨x, y, n, rfl⟩ := footprint_display hf
    · obtain rfl := Host.Outcome.next.inj ((exec_cls _).symm.trans hu)
      exact .inr ⟨rfl, .inl hi⟩
    · obtain hdraw | hsame := execDrw_display hu
      · exact .inr ⟨hdraw, .inr ⟨x, y, n, hi⟩⟩
      · exact .inl hsame
  · obtain ⟨u, rfl, hframe⟩ := step_frame h
    exact .inl (hframe.display_eq hdisp)

/-! #### Memory changes by stores only -/

/-- From s to t memory changed by one store of a run of bytes, an empty run for no change. -/
def MemStored (s t : State) : Prop := ∃ a bytes, t.mem = s.mem.writeList a bytes

theorem MemStored.of_eq {s t : State} (h : t.mem = s.mem) : MemStored s t := ⟨0, [], h⟩

theorem withAddrs_memStored {op : Word} {base count : Nat} {body : State → State} {s t : State}
    (hbody : MemStored s (body s)) (h : withAddrs op base count body s = .next t) : MemStored s t := by
  obtain ⟨-, -, rfl⟩ | ⟨-, rfl⟩ := withAddrs_cases h
  · exact .of_eq rfl
  · exact hbody

theorem skipIf_mem {c : Bool} {s t : State} (h : skipIf c s = .next t) : t.mem = s.mem := by
  obtain ⟨-, rfl⟩ | ⟨-, rfl⟩ := skipIf_cases h <;> rfl

theorem withKey_skipIf_mem {op : Word} {x : Reg} {c : Bool → Bool} {s t : State}
    (h : withKey op x s (fun down => skipIf (c down) s) = .next t) : t.mem = s.mem := by
  obtain ⟨_, hskip⟩ | ⟨-, rfl⟩ := withKey_skipIf_cases h
  · exact skipIf_mem hskip
  · rfl

theorem execCall_mem {nnn : Addr12} {s t : State} (h : execCall nnn s = .next t) : t.mem = s.mem := by
  obtain ⟨-, rfl⟩ | ⟨_, rfl⟩ := execCall_cases h <;> rfl

theorem execRet_mem {s t : State} (h : execRet s = .next t) : t.mem = s.mem := by
  obtain ⟨-, rfl⟩ | ⟨_, _, -, rfl⟩ := execRet_cases h <;> rfl

theorem execLdVxK_mem {x : Reg} {s t : State} (h : execLdVxK x s = .next t) : t.mem = s.mem := by
  obtain ⟨-, rfl⟩ | ⟨_, -, rfl⟩ := execLdVxK_cases h <;> rfl

theorem exec_memStored {i : Instr} {s t : State} (h : exec i s = .next t) : MemStored s t := by
  cases i with
  | ret => exact .of_eq (execRet_mem h)
  | call => exact .of_eq (execCall_mem h)
  | seImm | sneImm | seReg | sneReg => exact .of_eq (skipIf_mem h)
  | skp => exact .of_eq (withKey_skipIf_mem (c := id) h)
  | sknp => exact .of_eq (withKey_skipIf_mem (c := not) h)
  | ldVxK => exact .of_eq (execLdVxK_mem h)
  | drw => exact withAddrs_memStored (.of_eq rfl) h
  | ldBVx x => exact withAddrs_memStored ⟨s.base, bcdDigits (s.getV x), rfl⟩ h
  | ldMemVx x => exact withAddrs_memStored ⟨s.base, regBlock s x, rfl⟩ h
  | ldVxMem x =>
    exact withAddrs_memStored (body := fun s => loadBlock s x s.base) (.of_eq (loadBlock_mem s x s.base)) h
  | cls | sys | jp | jpV0 | ldI | addIVx | ldFVx => obtain rfl := Host.Outcome.next.inj h; exact .of_eq rfl
  | ldImm | addImm | ldReg | orReg | andReg | xorReg | rnd => obtain rfl := Host.Outcome.next.inj h; exact .of_eq rfl
  | addReg | sub | shr | subn | shl => obtain rfl := Host.Outcome.next.inj h; exact .of_eq rfl
  | ldVxDT | ldDTVx | ldSTVx => obtain rfl := Host.Outcome.next.inj h; exact .of_eq rfl

theorem step_memStored {s t : State} (h : step s = .next t) : MemStored s t := by
  obtain ⟨-, rfl⟩ | ⟨_, _, -, -, rfl⟩ | ⟨i, u, -, hu, rfl⟩ := step_cases h
  · exact .of_eq rfl
  · exact .of_eq rfl
  · obtain ⟨a, bytes, hmem⟩ := exec_memStored hu
    exact ⟨a, bytes, hmem⟩

/-- There is no cell above 4095 for a store to change (log entry 7). -/
theorem Memory.read_writeList_above (bytes : List Byte) (m : Memory) (a : Nat) {b : Nat} (hb : 4096 ≤ b) :
    (m.writeList a bytes).read b = m.read b := by
  induction bytes generalizing m a with
  | nil => rfl
  | cons v bytes ih =>
    rw [Memory.writeList, ih]
    by_cases ha : a < 4096
    · exact Memory.read_write_other m a v (by omega)
    · rw [Memory.write_above m ha]

theorem step_read_above {s t : State} (h : step s = .next t) {a : Nat} (ha : 4096 ≤ a) :
    t.mem.read a = s.mem.read a := by
  obtain ⟨b, bytes, hmem⟩ := step_memStored h
  rw [hmem, Memory.read_writeList_above bytes s.mem b ha]

/-- Settles O51: what a cycle changed lies in its footprint, and each field stands in the footprints of the named
instructions only. -/
theorem onlyTheNamedInstructionsWrite : Obligations.OnlyTheNamedInstructionsWrite := by
  intro s t hstep
  have hdisplay := step_display hstep
  have hbelow (a : Nat) (ha : t.mem.read a ≠ s.mem.read a) : a < 4096 :=
    Nat.lt_of_not_le fun hle => ha (step_read_above hstep hle)
  obtain ⟨u, rfl, hframe⟩ := step_frame hstep
  refine ⟨hframe.key_eq, fun hne => ?_, fun a ha => ⟨hbelow a ha, ?_⟩, fun hI => ?_, fun hne => ?_⟩
  · refine hdisplay.resolve_left fun ⟨hfb, hpending⟩ => ?_
    exact hne.elim (absurd hfb) (absurd hpending)
  · obtain ⟨i, hi, hf⟩ := not_not.1 fun hn => ha (hframe.read_eq hn)
    rcases footprint_mem hf with ⟨x, rfl, hrange⟩ | ⟨x, rfl, hrange⟩
    · exact .inl ⟨x, hi, hrange⟩
    · exact .inr ⟨x, hi, hrange⟩
  · obtain ⟨i, hi, hf⟩ := not_not.1 fun hn => hI (hframe.I_eq hn)
    obtain ⟨x, nnn, hwriter⟩ := footprint_I hf
    exact ⟨x, nnn, by rcases hwriter with rfl | rfl | rfl <;> simp [hi]⟩
  · by_cases hsp : (cycleFootprint s).sp
    · obtain ⟨i, hi, hf⟩ := hsp
      obtain ⟨nnn, rfl | rfl⟩ := footprint_sp hf
      · exact ⟨nnn, .inl hi⟩
      · exact ⟨nnn, .inr hi⟩
    · have hstack : u.stack ≠ s.stack := hne.resolve_left fun hn => hn (hframe.sp_eq hsp)
      obtain ⟨j, i, hi, hf⟩ := not_forall_not.1 fun hn => hstack (hframe.stack_eq hn)
      obtain ⟨nnn, rfl⟩ := footprint_stack hf
      exact ⟨nnn, .inl hi⟩

end Sys2Proof.Machine

/-! ### The invariant, reset and the host operations (10_state.md, section 4; 60_exceptions.md, section 5;
70_reset_and_hazards.md, section 1) -/

namespace Sys2Proof.Machine

open Sys2Proof

theorem atMostOneKey_congr {s t : State} (h : t.key = s.key) : atMostOneKey t ↔ atMostOneKey s := by
  simp only [atMostOneKey, State.keyDown, h]

theorem MemStored.wf {s t : State} (h : MemStored s t) (hwf : s.mem.wf = true) : t.mem.wf = true := by
  obtain ⟨a, bytes, hmem⟩ := h
  rw [hmem]
  exact Memory.wf_writeList hwf a bytes

/-- Settles O54: a cycle leaves memory as a run of stores left it, and no latch is in its footprint. -/
theorem stepKeepsTheInvariant : Obligations.StepKeepsTheInvariant := by
  rintro s t ⟨hwf, hkeys⟩ hstep
  refine ⟨(step_memStored hstep).wf hwf, ?_⟩
  obtain ⟨u, rfl, hframe⟩ := step_frame hstep
  exact (atMostOneKey_congr hframe.key_eq).2 hkeys

/-- Settles O56: reset lists no cell and holds no key down. -/
theorem resetMeetsTheInvariant : Obligations.ResetMeetsTheInvariant := by
  have hup (j : Reg) : State.reset.keyDown j = false := Vector.getElem_replicate j.isLt
  exact ⟨Memory.wf_nil, fun j k hj => absurd (hup j) (by simp [hj])⟩

theorem keyDown_setKey (k j : Reg) (s : State) : (setKey k s).keyDown j = decide (j = k) := by
  simp [setKey, State.keyDown, Vector.getElem_set, Fin.ext_iff, eq_comm]

/-- Settles O59: one latch is set over 16 cleared ones. -/
theorem setKeyLeavesOneLatchSet : Obligations.SetKeyLeavesOneLatchSet :=
  fun k s => ⟨setKey k s, rfl, fun j => keyDown_setKey k j s, rfl⟩

theorem setKey_inv (k : Reg) {s : State} (h : s.Inv) : (setKey k s).Inv := by
  obtain ⟨hwf, -⟩ := h
  refine ⟨hwf, fun i j hi hj => ?_⟩
  rw [keyDown_setKey, decide_eq_true_iff] at hi hj
  rw [hi, hj]

theorem load_none (s : State) : load none s = (s, .failure) := rfl

theorem load_of_gt {bytes : List Byte} (h : bytes.length > 3584) (s : State) : load (some bytes) s = (s, .failure) :=
  if_pos h

theorem load_of_le {bytes : List Byte} (h : bytes.length ≤ 3584) (s : State) :
    load (some bytes) s = ({ s with mem := s.mem.writeList 512 bytes }, .success) :=
  if_neg (Nat.not_lt.2 h)

theorem load_inv (b : Option (List Byte)) {s : State} (h : s.Inv) : (load b s).1.Inv := by
  obtain ⟨hwf, hkeys⟩ := h
  cases b with
  | none => exact ⟨hwf, hkeys⟩
  | some bytes =>
    by_cases hlen : bytes.length ≤ 3584
    · rw [load_of_le hlen]
      exact ⟨Memory.wf_writeList hwf 512 bytes, hkeys⟩
    · rw [load_of_gt (Nat.lt_of_not_le hlen)]
      exact ⟨hwf, hkeys⟩

/-- Settles O55: by cases on the host operation; `initialise` is reset, and the cycle is a step. -/
theorem hostOperationsKeepTheInvariant : Obligations.HostOperationsKeepTheInvariant := by
  intro o s h
  cases o with
  | initialise => exact resetMeetsTheInvariant
  | load b => exact load_inv b h
  | setKey k => exact setKey_inv k h
  | cycle =>
    obtain ⟨t, ht⟩ := everyStepAnswersANextState s
    rw [hostStep, cycleOp_of_step ht]
    exact stepKeepsTheInvariant s t h ht
  | readPixel | readTerminate => exact h
  | readDraw => exact h

/-- Settles O57: every field is the reset state's, and the reset memory lists no cell. -/
theorem initialiseResetsEverything : Obligations.InitialiseResetsEverything := by
  intro s t
  refine ⟨fun a ha => resetByte_font ha, fun a ha => resetByte_above_font ha, fun r => ?_, rfl, rfl, rfl, fun j => ?_,
    rfl, rfl, fun k => ?_, fun p => ?_, rfl, rfl, rfl⟩
  all_goals exact Vector.getElem_replicate (Fin.isLt _)

/-- Settles O58: the image's length decides; a write of a list reads back inside it and leaves every other byte. -/
theorem loadPlacesTheImageOrFails : Obligations.LoadPlacesTheImageOrFails := by
  intro s
  refine ⟨by rw [hostStep, load_none], fun b => ⟨fun hlen => by rw [hostStep, load_of_gt hlen], fun hlen => ?_⟩⟩
  refine ⟨_, by rw [hostStep, load_of_le hlen], fun j hj => ?_, fun a ha => ?_, rfl⟩
  · exact Memory.read_writeList_inside b s.mem 512 j hj (by omega)
  · exact Memory.read_writeList_outside b s.mem 512 ha

end Sys2Proof.Machine

/-! ### Subroutines and the indexed jump (41_control.md, sections 1, 2 and 4) -/

namespace Sys2Proof.Machine

open Sys2Proof

theorem exec_ret_of_succ {s : State} {k : Nat} (hk : k < 16) (hsp : s.sp.val = k + 1) :
    exec .ret s = .next { s with sp := ⟨k, by omega⟩, pc := s.stack[k] } := by
  rw [exec, execRet, popPc_of_pos hk hsp]

theorem exec_ret_of_empty {s : State} (hsp : s.sp.val = 0) :
    exec .ret s = .next (raiseFatal (.stackUnderflow 0x00EE#16) s) := by
  rw [exec, execRet, popPc_empty hsp]
  rfl

theorem exec_call_of_lt (nnn : Addr12) {s : State} (hsp : s.sp.val < 16) :
    exec (.call nnn) s = .next { s with
      stack := s.stack.set s.sp.val s.pc, sp := ⟨s.sp.val + 1, by omega⟩, pc := zextAddr nnn } := by
  rw [exec, execCall, pushPc_of_lt hsp]
  rfl

theorem exec_call_of_full (nnn : Addr12) {s : State} (hsp : s.sp.val = 16) :
    exec (.call nnn) s = .next (raiseFatal (.stackOverflow (packNNN 0x2#4 nnn)) s) := by
  rw [exec, execCall, pushPc_full hsp]
  rfl

/-- Settles O16: the two answers of the pop. -/
theorem retPopsTheReturnAddress : Obligations.RetPopsTheReturnAddress :=
  ⟨decode_retWord, fun _ => ⟨fun _ hk hsp => exec_ret_of_succ hk hsp, exec_ret_of_empty⟩⟩

/-- Settles O17: the words decode by format NNN, and the meaning is one of the two answers of the push. -/
theorem callPushesTheReturnAddress : Obligations.CallPushesTheReturnAddress :=
  ⟨decode_packNNN_call, fun nnn _ => ⟨exec_call_of_lt nnn, exec_call_of_full nnn⟩⟩

/-- Settles O18: the entry that CALL wrote, at the old sp, is the one that RET reads. -/
theorem retUndoesCall : Obligations.RetUndoesCall := by
  intro nnn s t u hsp hcall husp hustack
  rw [exec_call_of_lt nnn hsp] at hcall
  obtain rfl := Host.Outcome.next.inj hcall
  have hpushed : u.stack[s.sp.val] = s.pc := by simp [hustack]
  rw [exec_ret_of_succ hsp (by rw [husp]), hpushed]

theorem zextAddr_add_zextByte_toNat (nnn : Addr12) (v : Byte) :
    (zextAddr nnn + zextByte v).toNat = nnn.toNat + v.toNat := by
  have h1 := nnn.isLt
  have h2 := v.isLt
  simp [zextAddr, zextByte]
  omega

/-- Settles O21: the words decode by format NNN, and the sum of a 12-bit and an 8-bit value fits in pc. -/
theorem jpV0AddsV0Unmasked : Obligations.JpV0AddsV0Unmasked :=
  ⟨decode_packNNN_jpV0, fun nnn s =>
    ⟨s.setPc (zextAddr nnn + zextByte (s.getV 0)), rfl, zextAddr_add_zextByte_toNat nnn (s.getV 0), rfl⟩⟩

end Sys2Proof.Machine

/-! ### The flag-producing forms and RND (42_alu.md, sections 3 and 4) -/

namespace Sys2Proof

/-! #### Differences and shifts of bytes as integers modulo 256 (42_alu.md R82) -/

theorem byte_sub_toNat (a b : Byte) : (a - b).toNat = (a.toNat + 256 - b.toNat) % 256 := by
  have hb := b.isLt
  rw [BitVec.toNat_sub]
  omega

theorem byte_shiftRight_one_toNat (a : Byte) : (a >>> 1).toNat = a.toNat / 2 := by
  rw [BitVec.toNat_ushiftRight, Nat.shiftRight_one]

theorem byte_shiftLeft_one_toNat (a : Byte) : (a <<< 1).toNat = a.toNat * 2 % 256 := by
  rw [BitVec.toNat_shiftLeft, Nat.shiftLeft_eq]

theorem byte_sub_eq_ofNat_mod (a b : Byte) : a - b = BitVec.ofNat 8 ((a.toNat + 256 - b.toNat) % 256) := by
  rw [← byte_sub_toNat, BitVec.ofNat_toNat, BitVec.setWidth_eq]

theorem byte_shiftRight_one_eq_ofNat (a : Byte) : a >>> 1 = BitVec.ofNat 8 (a.toNat / 2) := by
  rw [← byte_shiftRight_one_toNat, BitVec.ofNat_toNat, BitVec.setWidth_eq]

theorem byte_shiftLeft_one_eq_ofNat (a : Byte) : a <<< 1 = BitVec.ofNat 8 (a.toNat * 2 % 256) := by
  rw [← byte_shiftLeft_one_toNat, BitVec.ofNat_toNat, BitVec.setWidth_eq]

end Sys2Proof

namespace Sys2Proof.Machine

open Sys2Proof

/-! #### The register file after a flag-producing form (00_scope.md R10, the spec's decision D2) -/

section forms

variable {flag : Byte → Byte → Bool} {result : Byte → Byte → Byte} {x y : Reg} {s : State}

/-- The form with its flag and its result given as values. -/
theorem flagThenResult_of_eq {c : Byte} {r : Byte → Byte → Byte} (hc : flagByte (flag (s.getV x) (s.getV y)) = c)
    (hr : ∀ a b, result a b = r a b) :
    flagThenResult flag result x y s = { s with
      V := (s.V.set 15 c).set x.val (r (s.V.set 15 c)[x.val] (s.V.set 15 c)[y.val]) } := by
  subst hc
  rw [← hr]
  rfl

theorem getV_flagThenResult_flag (hx : x ≠ 15) :
    (flagThenResult flag result x y s).getV 15 = flagByte (flag (s.getV x) (s.getV y)) := by
  rw [flagThenResult_eq, getV_setV_other _ _ _ _ hx.symm]
  exact getV_setV_same s 15 _

theorem getV_flagThenResult_result (hx : x ≠ 15) (hy : y ≠ 15) :
    (flagThenResult flag result x y s).getV x = result (s.getV x) (s.getV y) := by
  rw [flagThenResult_eq, getV_setV_same, getV_setV_other _ vf _ _ hx, getV_setV_other _ vf _ _ hy]

/-- With VF as Vy the result sees the new flag in its place. -/
theorem getV_flagThenResult_vf_right (hx : x ≠ 15) :
    (flagThenResult flag result x 15 s).getV x = result (s.getV x) (flagByte (flag (s.getV x) (s.getV 15))) := by
  rw [flagThenResult_eq, getV_setV_same, getV_setV_other _ vf _ _ hx]
  congr 1
  exact getV_setV_same s 15 _

/-- With VF as Vx the result sees the new flag in its place and overwrites it. -/
theorem getV_flagThenResult_vf_left (hy : y ≠ 15) :
    (flagThenResult flag result 15 y s).getV 15 = result (flagByte (flag (s.getV 15) (s.getV y))) (s.getV y) := by
  rw [flagThenResult_eq, getV_setV_same, getV_setV_other _ vf _ _ hy]
  congr 1
  exact getV_setV_same s 15 _

theorem getV_flagThenResult_vf_both :
    (flagThenResult flag result 15 15 s).getV 15 =
      result (flagByte (flag (s.getV 15) (s.getV 15))) (flagByte (flag (s.getV 15) (s.getV 15))) := by
  rw [flagThenResult_eq, getV_setV_same]
  congr 1 <;> exact getV_setV_same s 15 _

end forms

theorem flagByte_carry_toNat (a b : Byte) :
    (flagByte (carry a b)).toNat = if decide (a.toNat + b.toNat > 255) then 1 else 0 := flagByte_toNat _

theorem flagByte_noBorrow_toNat (a b : Byte) :
    (flagByte (noBorrow a b)).toNat = if decide (a.toNat ≥ b.toNat) then 1 else 0 := flagByte_toNat _

theorem flagByte_shiftedOutRight_toNat (v : Byte) : (flagByte (shiftedOutRight v)).toNat = v.toNat % 2 := by
  rw [flagByte_shiftedOutRight, BitVec.toNat_ofNat]
  omega

theorem flagByte_shiftedOutLeft_toNat (v : Byte) : (flagByte (shiftedOutLeft v)).toNat = v.toNat / 128 := by
  have hv := v.isLt
  rw [flagByte_shiftedOutLeft, BitVec.toNat_ofNat]
  omega

/-- Settles O24: the words decode by format XYN; the flag is the carry and the result the sum, each as an integer. -/
theorem addWritesCarryThenSum : Obligations.AddWritesCarryThenSum :=
  ⟨decode_packXYN_addReg,
    fun _ _ _ => congrArg Host.Outcome.next (flagThenResult_of_eq (flagByte_carry _ _) byte_add_eq_ofNat_mod)⟩

/-- Settles O25: the words decode by format XYN; the flag is no-borrow and the result the difference, each as an integer,
with the operands in the one order or the other. -/
theorem subtractWritesNoBorrowThenDifference : Obligations.SubtractWritesNoBorrowThenDifference :=
  ⟨fun x y => ⟨decode_packXYN_sub x y, decode_packXYN_subn x y⟩, fun _ _ _ =>
    ⟨congrArg Host.Outcome.next (flagThenResult_of_eq (flagByte_noBorrow _ _) byte_sub_eq_ofNat_mod),
      congrArg Host.Outcome.next
        (flagThenResult_of_eq (flag := fun a b => noBorrow b a) (flagByte_noBorrow _ _)
          fun a b => byte_sub_eq_ofNat_mod b a)⟩⟩

/-- Settles O26: the words decode by format XYN; both operands of the form are Vx, so Vy is not read. -/
theorem shiftsWriteTheBitOutThenShift : Obligations.ShiftsWriteTheBitOutThenShift :=
  ⟨fun x y => ⟨decode_packXYN_shr x y, decode_packXYN_shl x y⟩, fun _ _ _ =>
    ⟨congrArg Host.Outcome.next
        (flagThenResult_of_eq (flagByte_shiftedOutRight _) fun a _ => byte_shiftRight_one_eq_ofNat a),
      congrArg Host.Outcome.next
        (flagThenResult_of_eq (flagByte_shiftedOutLeft _) fun a _ => byte_shiftLeft_one_eq_ofNat a)⟩⟩

/-- Settles O28: away from VF the flag stays as written and the result sees the old operands. -/
theorem arithmeticLawsAwayFromVf : Obligations.ArithmeticLawsAwayFromVf := by
  intro x y s hx hy fl a b
  refine ⟨⟨_, rfl, ?_, ?_⟩, ⟨_, rfl, ?_, ?_⟩, ⟨_, rfl, ?_, ?_⟩, ⟨_, rfl, ?_, ?_⟩, ⟨_, rfl, ?_, ?_⟩⟩
  · rw [getV_flagThenResult_result hx hy, BitVec.toNat_add]
  · rw [getV_flagThenResult_flag hx, flagByte_carry_toNat]
  · rw [getV_flagThenResult_result hx hy, byte_sub_toNat]
  · rw [getV_flagThenResult_flag hx, flagByte_noBorrow_toNat]
  · rw [getV_flagThenResult_result hx hy, byte_sub_toNat]
  · rw [getV_flagThenResult_flag hx, flagByte_noBorrow_toNat]
  · rw [getV_flagThenResult_result hx hx, byte_shiftRight_one_toNat]
  · rw [getV_flagThenResult_flag hx, flagByte_shiftedOutRight_toNat]
  · rw [getV_flagThenResult_result hx hx, byte_shiftLeft_one_toNat]
  · rw [getV_flagThenResult_flag hx, flagByte_shiftedOutLeft_toNat]

/-- Settles O27: in each corner case the operand that is VF is read as the new flag, and a Vx that is VF overwrites it. -/
theorem vfAsAnOperand : Obligations.VfAsAnOperand := by
  intro x y s hx hy fl a b f
  refine ⟨⟨_, rfl, ?_⟩, ⟨_, rfl, ?_, ?_⟩, ⟨_, rfl, ?_⟩, ⟨_, rfl, ?_⟩, ⟨_, rfl, ?_, ?_⟩, ⟨_, rfl, ?_⟩, ⟨_, rfl, ?_⟩,
    ⟨_, rfl, ?_, ?_⟩, ⟨_, rfl, ?_⟩, ⟨_, rfl, ?_⟩, ⟨_, rfl, ?_⟩⟩
  · rw [getV_flagThenResult_vf_left hy, BitVec.toNat_add, flagByte_carry_toNat]
  · rw [getV_flagThenResult_flag hx, flagByte_carry_toNat]
  · rw [getV_flagThenResult_vf_right hx, BitVec.toNat_add, flagByte_carry_toNat]
  · rw [getV_flagThenResult_vf_both, BitVec.toNat_add, flagByte_carry_toNat, ← Nat.two_mul, ← Nat.two_mul]
    exact Nat.mod_eq_of_lt (by split <;> omega)
  · rw [getV_flagThenResult_vf_left hy, byte_sub_toNat, flagByte_noBorrow_toNat]
  · rw [getV_flagThenResult_flag hx, flagByte_noBorrow_toNat]
  · rw [getV_flagThenResult_vf_right hx, byte_sub_toNat, flagByte_noBorrow_toNat]
  · rw [getV_flagThenResult_vf_both, BitVec.sub_self]
    rfl
  · rw [getV_flagThenResult_vf_left hy, byte_sub_toNat, flagByte_noBorrow_toNat]
  · rw [getV_flagThenResult_flag hx, flagByte_noBorrow_toNat]
  · rw [getV_flagThenResult_vf_right hx, byte_sub_toNat, flagByte_noBorrow_toNat]
  · rw [getV_flagThenResult_vf_both, BitVec.sub_self]
    rfl
  · rw [getV_flagThenResult_vf_both, byte_shiftRight_one_toNat, flagByte_shiftedOutRight_toNat]
    omega
  · rw [getV_flagThenResult_vf_both, byte_shiftLeft_one_toNat, flagByte_shiftedOutLeft_toNat]
    have hf := (s.getV 15).isLt
    omega

/-- Settles O29: the words decode by format XKK, and the meaning is one write of Vx and one draw used up. -/
theorem randomByteIsMasked : Obligations.RandomByteIsMasked :=
  ⟨decode_packXKK_rnd, fun _ _ s => ⟨Config.rnd s.draws, rfl, rfl⟩⟩

end Sys2Proof.Machine

/-! ### The index register and memory (43_index_memory.md; 20_memory.md) -/

namespace Sys2Proof.Machine

open Sys2Proof

theorem exec_addIVx (x : Reg) (s : State) : exec (.addIVx x) s = .next (s.setI (s.I + zextByte (s.getV x))) := rfl

theorem exec_ldFVx (x : Reg) (s : State) : exec (.ldFVx x) s = .next (s.setI (glyphAddr (s.getV x))) := rfl

theorem add_zextByte_toNat (w : Word) (v : Byte) : (w + zextByte v).toNat = (w.toNat + v.toNat) % 65536 := by
  simp [zextByte]

theorem glyphAddr_toNat (v : Byte) : (glyphAddr v).toNat = v.toNat * 5 := by
  have hv := v.isLt
  simp [glyphAddr, zextByte]
  omega

/-- Settles O31: the words decode by format X, and each meaning is one write of I; five times a byte fits in it. -/
theorem addToIndexAndGlyphAddress : Obligations.AddToIndexAndGlyphAddress :=
  ⟨fun x => ⟨decode_packXKK_addIVx x, decode_packXKK_ldFVx x⟩, fun x s =>
    ⟨⟨_, exec_addIVx x s, add_zextByte_toNat s.I (s.getV x), rfl⟩,
      ⟨_, exec_ldFVx x s, glyphAddr_toNat (s.getV x), rfl⟩⟩⟩

/-! #### The memory transfers, in bounds and out of bounds -/

theorem exec_ldBVx_of_le (x : Reg) {s : State} (h : s.I.toNat + 2 ≤ 4095) :
    exec (.ldBVx x) s = .next (storeBytes s.I.toNat (bcdDigits (s.getV x)) s) :=
  withAddrs_ok (.inr (Nat.succ_le_succ h))

theorem exec_ldBVx_of_gt (x : Reg) {s : State} (h : s.I.toNat + 2 > 4095) :
    exec (.ldBVx x) s = .next (raiseFatal (.memoryBounds (packXKK 0xF#4 x 0x33#8) (max s.I.toNat 4096)) s) :=
  withAddrs_bad (Nat.succ_pos 2) (Nat.succ_lt_succ h)

theorem exec_ldMemVx_of_le {x : Reg} {s : State} (h : s.I.toNat + x.val ≤ 4095) :
    exec (.ldMemVx x) s = .next (storeBytes s.I.toNat (regBlock s x) s) :=
  withAddrs_ok (.inr (Nat.succ_le_succ h))

theorem exec_ldMemVx_of_gt {x : Reg} {s : State} (h : s.I.toNat + x.val > 4095) :
    exec (.ldMemVx x) s = .next (raiseFatal (.memoryBounds (packXKK 0xF#4 x 0x55#8) (max s.I.toNat 4096)) s) :=
  withAddrs_bad (Nat.succ_pos x.val) (Nat.succ_lt_succ h)

theorem exec_ldVxMem_of_le {x : Reg} {s : State} (h : s.I.toNat + x.val ≤ 4095) :
    exec (.ldVxMem x) s = .next (loadBlock s x s.I.toNat) :=
  withAddrs_ok (body := fun s => loadBlock s x s.base) (.inr (Nat.succ_le_succ h))

theorem exec_ldVxMem_of_gt {x : Reg} {s : State} (h : s.I.toNat + x.val > 4095) :
    exec (.ldVxMem x) s = .next (raiseFatal (.memoryBounds (packXKK 0xF#4 x 0x65#8) (max s.I.toNat 4096)) s) :=
  withAddrs_bad (body := fun s => loadBlock s x s.base) (Nat.succ_pos x.val) (Nat.succ_lt_succ h)

/-- A store of bytes that fit reads back as those bytes. -/
theorem read_storeBytes_inside {a : Nat} {bytes : List Byte} (s : State) {j : Nat} (hj : j < bytes.length)
    (h : a + bytes.length ≤ 4096) : (storeBytes a bytes s).mem.read (a + j) = bytes[j] :=
  Memory.read_writeList_inside bytes s.mem a j hj h

theorem read_storeBytes_outside {a : Nat} {bytes : List Byte} (s : State) {b : Nat}
    (hb : b < a ∨ a + bytes.length ≤ b) : (storeBytes a bytes s).mem.read b = s.mem.read b :=
  Memory.read_writeList_outside bytes s.mem a hb

theorem read_storeBytes_regBlock {x : Reg} {s : State} (h : s.I.toNat + x.val ≤ 4095) {r : Reg} (hr : r ≤ x) :
    (storeBytes s.I.toNat (regBlock s x) s).mem.read (s.I.toNat + r.val) = s.getV r := by
  have hlen : r.val < (regBlock s x).length := by
    rw [regBlock_length]
    exact Nat.lt_succ_of_le hr
  rw [read_storeBytes_inside s hlen (by rw [regBlock_length]; omega), regBlock_getElem]

/-- Settles O32: the words decode by format X; in bounds the three digits read back, and out of bounds nothing is
stored. -/
theorem bcdStoresThreeDigits : Obligations.BcdStoresThreeDigits := by
  refine ⟨decode_packXKK_ldBVx, fun x s => ⟨fun h => ?_, exec_ldBVx_of_gt x⟩⟩
  have hread (j : Nat) (hj : j < 3) :=
    read_storeBytes_inside (a := s.I.toNat) (bytes := bcdDigits (s.getV x)) s hj (by rw [bcdDigits_length]; omega)
  refine ⟨_, exec_ldBVx_of_le x h, ?_, ?_, ?_,
    fun a ha => read_storeBytes_outside s (by rw [bcdDigits_length]; omega), rfl⟩
  · exact (congrArg BitVec.toNat (hread 0 (by decide))).trans BitVec.toNat_udiv
  · exact (congrArg BitVec.toNat (hread 1 (by decide))).trans (by simp [bcdDigits])
  · exact (congrArg BitVec.toNat (hread 2 (by decide))).trans BitVec.toNat_umod

/-- Settles O33: the words decode by format X; in bounds the block reads back, and out of bounds nothing is stored. -/
theorem storeBlockWritesV0ToVx : Obligations.StoreBlockWritesV0ToVx :=
  ⟨decode_packXKK_ldMemVx, fun x s =>
    ⟨fun h => ⟨_, exec_ldMemVx_of_le h, fun _ hr => read_storeBytes_regBlock h hr,
      fun a ha => read_storeBytes_outside s (by rw [regBlock_length]; omega), rfl⟩,
    exec_ldMemVx_of_gt⟩⟩

/-- Settles O34: the words decode by format X; in bounds each register of the block is its byte, and out of bounds none
is loaded. -/
theorem loadBlockReadsV0ToVx : Obligations.LoadBlockReadsV0ToVx :=
  ⟨decode_packXKK_ldVxMem, fun x s =>
    ⟨fun h => ⟨_, exec_ldVxMem_of_le h, getV_loadBlock s x s.I.toNat, by unfold loadBlock; rfl⟩, exec_ldVxMem_of_gt⟩⟩

/-- Settles O35: the stored block reads back byte by byte, through the load and through the fetch. -/
theorem storesAreSeenByLaterLoadsAndFetches : Obligations.StoresAreSeenByLaterLoadsAndFetches := by
  refine ⟨fun x s t u hx hstore hmem hI => ?_, fun s t hI hstore => ?_⟩
  · rw [exec_ldMemVx_of_le hx] at hstore
    obtain rfl := Host.Outcome.next.inj hstore
    refine ⟨_, exec_ldVxMem_of_le (hI ▸ hx), fun r hr => ?_⟩
    rw [getV_loadBlock, if_pos hr, hmem, hI, read_storeBytes_regBlock hx hr]
  · rw [exec_ldMemVx_of_le hI] at hstore
    obtain rfl := Host.Outcome.next.inj hstore
    have hread (r : Reg) (hr : r ≤ 1) := read_storeBytes_regBlock hI hr
    rw [fetchWord_of_lt (Nat.lt_of_succ_le hI), wordOfBytes_eq_append]
    exact congrArg some (congrArg₂ (· ++ ·) (hread 0 (by decide)) (hread 1 (by decide)))

/-! #### The canonical form is one list for each contents -/

/-- A cell below every listed one holds its reset contents. -/
theorem Memory.read_of_wfAbove {m : Memory} {b a : Nat} (h : Memory.wfAbove (some b) m = true) (ha : a ≤ b) :
    m.read a = resetByte a := by
  induction m generalizing b with
  | nil => rfl
  | cons c m ih =>
    obtain ⟨k, v⟩ := c
    obtain ⟨hlo, -, -, htail⟩ := (Memory.wfAbove_cons _ _ _ _).1 h
    have hk := hlo b rfl
    rw [Memory.read_cons, if_neg (by omega), ih htail (by omega)]

/-- The first listed cell of a canonical memory differs from its reset contents, and so from that cell of a canonical
memory that starts above it. -/
theorem Memory.head_le_of_read_eq {lo : Option Nat} {a b : Nat} {v w : Byte} {m m' : Memory}
    (h : Memory.wfAbove lo ((a, v) :: m) = true) (h' : Memory.wfAbove lo ((b, w) :: m') = true)
    (hread : ∀ c, Memory.read ((a, v) :: m) c = Memory.read ((b, w) :: m') c) : b ≤ a := by
  obtain ⟨-, -, hv, -⟩ := (Memory.wfAbove_cons _ _ _ _).1 h
  obtain ⟨-, -, -, htail⟩ := (Memory.wfAbove_cons _ _ _ _).1 h'
  by_contra hlt
  have hc := hread a
  rw [Memory.read_cons, if_pos rfl, Memory.read_cons, if_neg (by omega),
    Memory.read_of_wfAbove htail (by omega)] at hc
  exact hv hc

theorem Memory.eq_of_read_eq {m m' : Memory} {lo : Option Nat} (h : Memory.wfAbove lo m = true)
    (h' : Memory.wfAbove lo m' = true) (hread : ∀ c, m.read c = m'.read c) : m = m' := by
  induction m generalizing m' lo with
  | nil =>
    cases m' with
    | nil => rfl
    | cons c m' =>
      obtain ⟨b, w⟩ := c
      obtain ⟨-, -, hw, -⟩ := (Memory.wfAbove_cons _ _ _ _).1 h'
      have hc := hread b
      rw [Memory.read_cons, if_pos rfl] at hc
      exact absurd hc.symm hw
  | cons c m ih =>
    obtain ⟨a, v⟩ := c
    cases m' with
    | nil =>
      obtain ⟨-, -, hv, -⟩ := (Memory.wfAbove_cons _ _ _ _).1 h
      have hc := hread a
      rw [Memory.read_cons, if_pos rfl] at hc
      exact absurd hc hv
    | cons c' m' =>
      obtain ⟨b, w⟩ := c'
      obtain rfl : a = b := Nat.le_antisymm (Memory.head_le_of_read_eq h' h fun c => (hread c).symm)
        (Memory.head_le_of_read_eq h h' hread)
      obtain ⟨-, -, -, htail⟩ := (Memory.wfAbove_cons _ _ _ _).1 h
      obtain ⟨-, -, -, htail'⟩ := (Memory.wfAbove_cons _ _ _ _).1 h'
      have hvw : v = w := by simpa [Memory.read_cons] using hread a
      have hrest : m = m' := ih htail htail' fun c => by
        by_cases hca : c ≤ a
        · rw [Memory.read_of_wfAbove htail hca, Memory.read_of_wfAbove htail' hca]
        · have hc := hread c
          rwa [Memory.read_cons, if_neg (by omega), Memory.read_cons, if_neg (by omega)] at hc
      rw [hvw, hrest]

/-- Settles O36: by induction on the list, the first cells naming the lowest address that differs from its reset
contents. -/
theorem canonicalMemoriesThatReadAlikeAreEqual : Obligations.CanonicalMemoriesThatReadAlikeAreEqual :=
  fun _ _ h h' hread => Memory.eq_of_read_eq h h' hread

end Sys2Proof.Machine

/-! ### Drawing (44_display.md, section 2) and the key skips (45_input_timers.md, section 1) -/

namespace Sys2Proof.Machine

open Sys2Proof

/-! #### What one DRW does to a pixel and to VF -/

/-- DRW Vx, Vy, n from a state covers the pixel (px, py) with a 1 bit: in a visible column and in a row that is not
clipped, with that bit set in the row's byte. -/
def drwCovers (s : State) (x y : Reg) (n : RowCount) (px py : Nat) : Prop :=
  (s.getV x).toNat % 64 ≤ px ∧ px < (s.getV x).toNat % 64 + 8 ∧ px < 64 ∧
    (s.getV y).toNat % 32 ≤ py ∧ py < (s.getV y).toNat % 32 + min n.val (32 - (s.getV y).toNat % 32) ∧
    (s.mem.read (s.I.toNat + (py - (s.getV y).toNat % 32))).getLsbD (7 - (px - (s.getV x).toNat % 64)) = true

/-- The state in which DRW Vx, Vy, n leaves a state whose rows are all in bounds. -/
def drawn (s : State) (x y : Reg) (n : RowCount) : State :=
  drawSprite (startColumn (s.getV x)) (startRow (s.getV y)) n s

section drawing

variable {s : State} {x y : Reg} {n : RowCount}

theorem drwCovers.lt {px py : Nat} (h : drwCovers s x y n px py) : px < 64 ∧ py < 32 := by
  obtain ⟨-, -, hpx, -, hpy, -⟩ := h
  omega

/-- On the screen the rows clipped at the bottom edge cover no pixel, so the covered pixels are those of the loops. -/
theorem drwCovers_iff_spriteCovers {px py : Nat} (hpx : px < 64) (hpy : py < 32) :
    drwCovers s x y n px py ↔
      spriteCovers s.mem s.base (startColumn (s.getV x)) (startRow (s.getV y)) 0 n.val px py := by
  simp only [drwCovers, spriteCovers, columnCovers, startColumn, startRow, State.base, Config.fbWidth, Config.fbHeight,
    Nat.add_zero]
  constructor
  · rintro ⟨hl, hr, -, ht, hb, hbit⟩
    exact ⟨ht, by omega, hl, hr, hbit⟩
  · rintro ⟨ht, hb, hl, hr, hbit⟩
    exact ⟨hl, hr, hpx, ht, by omega, hbit⟩

theorem pixelAt_drawn_covered {px py : Nat} (h : drwCovers s x y n px py) :
    pixelAt (drawn s x y n).fb px py = !pixelAt s.fb px py := by
  obtain ⟨hpx, hpy⟩ := h.lt
  simp only [drawn, drawSprite, List.range_eq_range']
  exact (pixelAt_drawRows _ _ _ _ _ _ (s.fb, false) hpx hpy).1 ((drwCovers_iff_spriteCovers hpx hpy).1 h)

theorem pixelAt_drawn_uncovered {px py : Nat} (hpx : px < 64) (hpy : py < 32) (h : ¬ drwCovers s x y n px py) :
    pixelAt (drawn s x y n).fb px py = pixelAt s.fb px py := by
  simp only [drawn, drawSprite, List.range_eq_range']
  exact (pixelAt_drawRows _ _ _ _ _ _ (s.fb, false) hpx hpy).2 (mt (drwCovers_iff_spriteCovers hpx hpy).2 h)

/-- Whether DRW toggles a pixel that was set. -/
def drwCollides (s : State) (x y : Reg) (n : RowCount) : Prop :=
  ∃ px py, drwCovers s x y n px py ∧ pixelAt s.fb px py = true

theorem drawRows_collision_iff :
    (drawRows s.mem s.base (startColumn (s.getV x)) (startRow (s.getV y)) (List.range n.val) (s.fb, false)).2 = true ↔
      drwCollides s x y n := by
  rw [List.range_eq_range', collision_drawRows, drwCollides]
  constructor
  · rintro (hfalse | ⟨px, py, hpx, hpy, hcov, hset⟩)
    · nomatch hfalse
    · exact ⟨px, py, (drwCovers_iff_spriteCovers hpx hpy).2 hcov, hset⟩
  · rintro ⟨px, py, hcov, hset⟩
    obtain ⟨hpx, hpy⟩ := hcov.lt
    exact .inr ⟨px, py, hpx, hpy, (drwCovers_iff_spriteCovers hpx hpy).1 hcov, hset⟩

theorem getV_drawn_vf : (drawn s x y n).getV 15 = flagByte
    (drawRows s.mem s.base (startColumn (s.getV x)) (startRow (s.getV y)) (List.range n.val) (s.fb, false)).2 :=
  getV_setV_same s vf _

theorem getV_drawn_of_collides (h : drwCollides s x y n) : (drawn s x y n).getV 15 = 1 := by
  rw [getV_drawn_vf, drawRows_collision_iff.2 h]
  rfl

theorem getV_drawn_of_not_collides (h : ¬ drwCollides s x y n) : (drawn s x y n).getV 15 = 0 := by
  rw [getV_drawn_vf, Bool.eq_false_iff.2 (mt drawRows_collision_iff.1 h)]
  rfl

theorem drawn_eq : drawn s x y n =
    { s with V := s.V.set 15 ((drawn s x y n).getV 15), fb := (drawn s x y n).fb, drawPending := true } := by
  rw [getV_drawn_vf]
  rfl

theorem getV_drawn_of_ne {r : Reg} (hr : r ≠ 15) : (drawn s x y n).getV r = s.getV r :=
  getV_setV_other s vf r _ hr

theorem exec_drw_of_le
    (h : visibleRows n (startRow (s.getV y)) = 0 ∨ s.I.toNat + visibleRows n (startRow (s.getV y)) ≤ 4096) :
    exec (.drw x y n) s = .next (drawn s x y n) :=
  withAddrs_ok h

theorem exec_drw_of_gt (hrows : 0 < visibleRows n (startRow (s.getV y)))
    (h : s.I.toNat + visibleRows n (startRow (s.getV y)) > 4096) :
    exec (.drw x y n) s = .next (raiseFatal (.memoryBounds (packXYN 0xD#4 x y n) (max s.I.toNat 4096)) s) :=
  withAddrs_bad hrows h

end drawing

/-- Settles O38: the words decode by format XYN; in bounds the row loop toggles the covered pixels and reports the
collision, and out of bounds nothing is drawn. -/
theorem drwXorsTheClippedSprite : Obligations.DrwXorsTheClippedSprite := by
  refine ⟨decode_packXYN_drw, fun x y n s => ?_⟩
  dsimp only
  refine ⟨fun hin => ⟨drawn s x y n, exec_drw_of_le ?_, fun px py hpx hpy => ?_, ?_, ?_, drawn_eq⟩,
    fun hrows hout => exec_drw_of_gt hrows ?_⟩
  · simp only [visibleRows, startRow, Config.fbHeight]
    omega
  · exact ⟨pixelAt_drawn_covered, pixelAt_drawn_uncovered hpx hpy⟩
  · exact getV_drawn_of_collides
  · exact getV_drawn_of_not_collides
  · simp only [visibleRows, startRow, Config.fbHeight]
    omega

/-! #### Drawing twice -/

/-- A second draw with both coordinates kept covers the same pixels. -/
theorem drwCovers_drawn {s : State} {x y : Reg} (hx : x ≠ 15) (hy : y ≠ 15) (n : RowCount) (px py : Nat) :
    drwCovers (drawn s x y n) x y n px py ↔ drwCovers s x y n px py := by
  rw [drwCovers, getV_drawn_of_ne hx, getV_drawn_of_ne hy]
  rfl

theorem pixelAt_drawn_drawn {s : State} {x y : Reg} (hx : x ≠ 15) (hy : y ≠ 15) (n : RowCount) {px py : Nat}
    (hpx : px < 64) (hpy : py < 32) :
    pixelAt (drawn (drawn s x y n) x y n).fb px py = pixelAt s.fb px py := by
  by_cases hcov : drwCovers s x y n px py
  · rw [pixelAt_drawn_covered ((drwCovers_drawn hx hy n px py).2 hcov), pixelAt_drawn_covered hcov, Bool.not_not]
  · rw [pixelAt_drawn_uncovered hpx hpy (mt (drwCovers_drawn hx hy n px py).1 hcov),
      pixelAt_drawn_uncovered hpx hpy hcov]

/-- A framebuffer is its 64 by 32 pixels. -/
theorem fb_ext {fb fb' : Vector Bool 2048} (h : ∀ px py, px < 64 → py < 32 → pixelAt fb px py = pixelAt fb' px py) :
    fb = fb' := by
  refine Vector.ext fun i hi => ?_
  have hpix := h (i % 64) (i / 64) (by omega) (by omega)
  have hindex : fbIndex (i % 64) (i / 64) = i := Nat.mod_add_div i 64
  simpa [pixelAt, hindex, hi] using hpix

/-- The second draw toggles a set pixel exactly when the first one set a pixel that was clear. -/
theorem drwCollides_drawn {s : State} {x y : Reg} (hx : x ≠ 15) (hy : y ≠ 15) (n : RowCount) :
    drwCollides (drawn s x y n) x y n ↔
      ∃ px py, px < 64 ∧ py < 32 ∧ pixelAt s.fb px py = false ∧ pixelAt (drawn s x y n).fb px py = true := by
  constructor
  · rintro ⟨px, py, hcov, hset⟩
    obtain ⟨hpx, hpy⟩ := hcov.lt
    have hflip := pixelAt_drawn_covered ((drwCovers_drawn hx hy n px py).1 hcov)
    exact ⟨px, py, hpx, hpy, by simpa [hset] using hflip, hset⟩
  · rintro ⟨px, py, hpx, hpy, hclear, hset⟩
    refine ⟨px, py, (drwCovers_drawn hx hy n px py).2 (not_not.1 fun hcov => ?_), hset⟩
    have hsame := pixelAt_drawn_uncovered hpx hpy hcov
    rw [hclear, hset] at hsame
    nomatch hsame

theorem getV_drawn_eq_one_iff {s : State} {x y : Reg} {n : RowCount} :
    (drawn s x y n).getV 15 = 1 ↔ drwCollides s x y n := by
  refine ⟨fun h => not_not.1 fun hnone => ?_, getV_drawn_of_collides⟩
  rw [getV_drawn_of_not_collides hnone] at h
  nomatch h

/-- Settles O39: both draws are in bounds and cover the same pixels, so each pixel is toggled twice or never. -/
theorem drawingTwiceRestores : Obligations.DrawingTwiceRestores := by
  intro x y n s t u hx hy hfatal hfirst hsecond
  have hok : visibleRows n (startRow (s.getV y)) = 0 ∨ s.I.toNat + visibleRows n (startRow (s.getV y)) ≤ 4096 := by
    by_contra hbad
    have hraise : instrFatal (encode (.drw x y n)) (.drw x y n) s ≠ none := by
      rw [instrFatal, boundsFatal, if_pos (by simp only [visibleRows, startRow, Config.fbHeight] at hbad; omega)]
      nofun
    exact hraise hfatal
  rw [exec_drw_of_le hok] at hfirst
  obtain rfl := Host.Outcome.next.inj hfirst
  rw [exec_drw_of_le (by rw [getV_drawn_of_ne hy]; exact hok)] at hsecond
  obtain rfl := Host.Outcome.next.inj hsecond
  exact ⟨fb_ext fun px py hpx hpy => pixelAt_drawn_drawn hx hy n hpx hpy,
    getV_drawn_eq_one_iff.trans (drwCollides_drawn hx hy n)⟩

/-! #### The key skips -/

theorem withKey_of_lt {op : Word} {x : Reg} {s : State} {k : Bool → Res} (h : (s.getV x).toNat < 16) :
    withKey op x s k = k (s.key[(s.getV x).toNat]) := dif_pos h

theorem withKey_of_gt {op : Word} {x : Reg} {s : State} {k : Bool → Res} (h : (s.getV x).toNat > 15) :
    withKey op x s k = .next (raiseFatal (.keyIndex op (s.getV x)) s) := dif_neg (Nat.not_lt.2 h)

theorem skipIf_eq (c : Bool) (s : State) :
    skipIf c s = .next (if c = true then { s with pc := s.pc + 2 } else s) := rfl

theorem skipIf_not (c : Bool) (s : State) :
    skipIf (!c) s = .next (if c = true then s else { s with pc := s.pc + 2 }) := by
  cases c <;> rfl

theorem exec_skp_of_lt {x : Reg} {s : State} (h : (s.getV x).toNat < 16) :
    exec (.skp x) s = skipIf (s.key[(s.getV x).toNat]) s := by
  rw [exec, execSkp, withKey_of_lt h]

theorem exec_skp_of_gt {x : Reg} {s : State} (h : (s.getV x).toNat > 15) :
    exec (.skp x) s = .next (raiseFatal (.keyIndex (packXKK 0xE#4 x 0x9E#8) (s.getV x)) s) := by
  rw [exec, execSkp, withKey_of_gt h, encode]

theorem exec_sknp_of_lt {x : Reg} {s : State} (h : (s.getV x).toNat < 16) :
    exec (.sknp x) s = skipIf (!s.key[(s.getV x).toNat]) s := by
  rw [exec, execSknp, withKey_of_lt h]

theorem exec_sknp_of_gt {x : Reg} {s : State} (h : (s.getV x).toNat > 15) :
    exec (.sknp x) s = .next (raiseFatal (.keyIndex (packXKK 0xE#4 x 0xA1#8) (s.getV x)) s) := by
  rw [exec, execSknp, withKey_of_gt h, encode]

/-- Settles O40: the words decode by format X; an index below 16 skips on the latch or on its opposite, and one above 15
raises the condition. -/
theorem keySkipsReadTheLatch : Obligations.KeySkipsReadTheLatch :=
  ⟨fun x => ⟨decode_packXKK_skp x, decode_packXKK_sknp x⟩, fun _ s =>
    ⟨fun h => ⟨(exec_skp_of_lt h).trans (skipIf_eq _ s), (exec_sknp_of_lt h).trans (skipIf_not _ s)⟩,
      fun h => ⟨exec_skp_of_gt h, exec_sknp_of_gt h⟩⟩⟩

end Sys2Proof.Machine
